-- ==== Sys2Proof/Word.lean ====
section
/-! DEFINITION. The word of the machine, the names of its registers and the address operand of an
instruction (spec/00_scope.md R4, R6; spec/10_state.md R20, R21; spec/30_encoding.md R95). -/

namespace Sys2Proof

/-- A memory word, a general or index register, IR or MBR: 16 bits, bit 15 the most significant
(R4, R6). -/
abbrev Word := BitVec 16

/-- The number of a general register, 0 to 3 (R20). -/
abbrev Reg := Fin 4

/-- The index registers `X[1]`, `X[2]`, `X[3]`; there is no index register 0 (R21). -/
inductive XReg where
  | x1
  | x2
  | x3
  deriving DecidableEq, Repr

/-- The inputs of the effective-address computation (R95): the index selector IR[7:6] (`none` is
selector 0, no indexing, R125), the indirect bit IR[5] and the unsigned address field IR[4:0]. -/
structure AddrOperand where
  ix : Option XReg
  indirect : Bool
  addr : BitVec 5
  deriving DecidableEq, Repr

end Sys2Proof
end

