-- ==== Sys2Proof/Config.lean ====
section
/-! DEFINITION. What an implementation fixes: the open parameters of spec/00_scope.md R5, as plain
data (their default values stand in Machine/Defaults.lean and, for OPMAP, in Decode.lean), and the
one free value of the spec. -/

namespace Sys2Proof

/-- The 27 mnemonics of the opcode table (spec/30_encoding.md R98). -/
inductive Mnemonic where
  | hlt | ldr | str | lda | amr | smr | air | sir
  | jz | jne | jcc | jma | jsr | rfs | sob
  | src | rrc | ldx | stx | inp | out
  | mlt | dvd | trr | and | orr | not
  deriving DecidableEq, Repr

/-- Every mnemonic, in the order of R98. -/
def Mnemonic.all : List Mnemonic :=
  [.hlt, .ldr, .str, .lda, .amr, .smr, .air, .sir,
   .jz, .jne, .jcc, .jma, .jsr, .rfs, .sob,
   .src, .rrc, .ldx, .stx, .inp, .out,
   .mlt, .dvd, .trr, .and, .orr, .not]

/-- The parameter OPMAP (R5, D1): the opcode number of each of the 26 mnemonics other than HLT,
which the document fixes at 0. -/
structure Opmap where
  ldr : BitVec 6
  str : BitVec 6
  lda : BitVec 6
  amr : BitVec 6
  smr : BitVec 6
  air : BitVec 6
  sir : BitVec 6
  jz : BitVec 6
  jne : BitVec 6
  jcc : BitVec 6
  jma : BitVec 6
  jsr : BitVec 6
  rfs : BitVec 6
  sob : BitVec 6
  src : BitVec 6
  rrc : BitVec 6
  ldx : BitVec 6
  stx : BitVec 6
  inp : BitVec 6
  out : BitVec 6
  mlt : BitVec 6
  dvd : BitVec 6
  trr : BitVec 6
  and : BitVec 6
  orr : BitVec 6
  not : BitVec 6
  deriving DecidableEq, Repr

/-- The opcode number of a mnemonic: "HLT encoding to opcode 0" (R98), the others by OPMAP. -/
def Opmap.opcode (m : Opmap) : Mnemonic → BitVec 6
  | .hlt => 0
  | .ldr => m.ldr
  | .str => m.str
  | .lda => m.lda
  | .amr => m.amr
  | .smr => m.smr
  | .air => m.air
  | .sir => m.sir
  | .jz => m.jz
  | .jne => m.jne
  | .jcc => m.jcc
  | .jma => m.jma
  | .jsr => m.jsr
  | .rfs => m.rfs
  | .sob => m.sob
  | .src => m.src
  | .rrc => m.rrc
  | .ldx => m.ldx
  | .stx => m.stx
  | .inp => m.inp
  | .out => m.out
  | .mlt => m.mlt
  | .dvd => m.dvd
  | .trr => m.trr
  | .and => m.and
  | .orr => m.orr
  | .not => m.not

/-- The parameter CC_INDEX (R5, D11): which `cc[i]` records which outcome. -/
structure CcIndex where
  overflow : Fin 4
  underflow : Fin 4
  divzero : Fin 4
  equalornot : Fin 4
  deriving DecidableEq, Repr

/-- The parameter ARITH (R5, D13): how add and subtract read their operands. -/
inductive Arith where
  | signed
  | unsigned
  deriving DecidableEq, Repr

/-- The parameter DZ_POLICY (R5, D17): what a divide by zero does beyond setting its flag. -/
inductive DzPolicy where
  | continue
  | halt
  deriving DecidableEq, Repr

/-- The open parameters of R5. `ccPack[i]` is the bit of the 4-bit value the host reads that shows
`cc[i]`; `lrLeft` and `alLogical` are the values of the L/R and A/L flags that mean left and
logical. -/
structure Config where
  opmap : Opmap
  ccIndex : CcIndex
  ccPack : Vector (Fin 4) 4
  mfrIllop : Fin 4
  mfrMem : Fin 4
  link : Reg
  arith : Arith
  lrLeft : Bool
  alLogical : Bool
  dzPolicy : DzPolicy
  deriving DecidableEq, Repr

/-- The hit rate when there has been no access: "unspecified" (spec/20_memory.md R64, U10), so a
free value: it has no body, and nothing can be proved of it. Host-side only; no step uses it. -/
opaque Config.hitRateOfNothing : Rat

end Sys2Proof
end

