-- ==== Sys2Proof/Syntax.lean ====
section
/-! DEFINITION. The instruction set: one constructor per row of spec/opcode_table.json, with the
fields the instruction reads (spec/30_encoding.md R98, R99). Fields an instruction ignores are not
part of it. -/

namespace Sys2Proof

/-- The 27 instructions (R98). `x = none` in `ldx` and `stx` is index selector 0, an encoding the
spec refuses (R101 (a)). -/
inductive Instr where
  /-- HLT (R131). -/
  | hlt
  /-- LDR r,x,address[,I] (R140). -/
  | ldr (r : Reg) (a : AddrOperand)
  /-- STR r,x,address[,I] (R141). -/
  | str (r : Reg) (a : AddrOperand)
  /-- LDA r,x,address[,I] (R142). -/
  | lda (r : Reg) (a : AddrOperand)
  /-- AMR r,x,address[,I] (R151). -/
  | amr (r : Reg) (a : AddrOperand)
  /-- SMR r,x,address[,I] (R152). -/
  | smr (r : Reg) (a : AddrOperand)
  /-- AIR r,immed (R153). -/
  | air (r : Reg) (immed : BitVec 8)
  /-- SIR r,immed (R154). -/
  | sir (r : Reg) (immed : BitVec 8)
  /-- JZ r,x,address[,I] (R170). -/
  | jz (r : Reg) (a : AddrOperand)
  /-- JNE r,x,address[,I] (R171). -/
  | jne (r : Reg) (a : AddrOperand)
  /-- JCC cc,x,address[,I] (R172): `i` selects `cc[i]`. -/
  | jcc (i : Fin 4) (a : AddrOperand)
  /-- JMA x,address[,I] (R173). -/
  | jma (a : AddrOperand)
  /-- JSR x,address[,I] (R174). -/
  | jsr (a : AddrOperand)
  /-- RFS immed (R175). -/
  | rfs (immed : BitVec 5)
  /-- SOB r,x,address[,I] (R176). -/
  | sob (r : Reg) (a : AddrOperand)
  /-- SRC r,count,L/R,A/L (R181). -/
  | src (r : Reg) (al lr : Bool) (count : BitVec 4)
  /-- RRC r,count,L/R,A/L (R182). -/
  | rrc (r : Reg) (al lr : Bool) (count : BitVec 4)
  /-- LDX x,address[,I] (R143): `x` is the register loaded, never an index. -/
  | ldx (x : Option XReg) (indirect : Bool) (addr : BitVec 5)
  /-- STX x,address[,I] (R144). -/
  | stx (x : Option XReg) (indirect : Bool) (addr : BitVec 5)
  /-- IN r,devid (R191). -/
  | inp (r : Reg) (devid : BitVec 5)
  /-- OUT r,devid (R192). -/
  | out (r : Reg) (devid : BitVec 5)
  /-- MLT rx,ry (R161). -/
  | mlt (rx ry : Reg)
  /-- DVD rx,ry (R162). -/
  | dvd (rx ry : Reg)
  /-- TRR rx,ry (R163). -/
  | trr (rx ry : Reg)
  /-- AND rx,ry (R164). -/
  | and (rx ry : Reg)
  /-- ORR rx,ry (R165). -/
  | orr (rx ry : Reg)
  /-- NOT rx (R166). -/
  | not (rx : Reg)
  deriving DecidableEq, Repr

end Sys2Proof
end

