-- ==== Sys2Proof/WellFormed.lean ====
section
/-! DEFINITION. Which instructions the spec gives a meaning (the others have a legal opcode and are
refused, spec/30_encoding.md R101), and which parameter values are legal (spec/00_scope.md R5). -/

namespace Sys2Proof

/-- The instruction is none of the refused encodings of R101: LDX and STX name an index register,
the registers of MLT and DVD are even, IN names device 0 and OUT device 1. -/
def Instr.wf : Instr → Bool
  | .ldx x _ _ => x.isSome
  | .stx x _ _ => x.isSome
  | .mlt rx ry => rx.val % 2 == 0 && ry.val % 2 == 0
  | .dvd rx ry => rx.val % 2 == 0 && ry.val % 2 == 0
  | .inp _ devid => devid == 0
  | .out _ devid => devid == 1
  | .hlt | .ldr .. | .str .. | .lda .. | .amr .. | .smr .. | .air .. | .sir ..
  | .jz .. | .jne .. | .jcc .. | .jma .. | .jsr .. | .rfs .. | .sob ..
  | .src .. | .rrc .. | .trr .. | .and .. | .orr .. | .not .. => true

/-- OPMAP is injective and uses none of its numbers for HLT's 0 (R5). -/
abbrev Opmap.wf (m : Opmap) : Prop := (Mnemonic.all.map m.opcode).Nodup

/-- The four outcomes have four different condition bits (R5, R25). -/
abbrev CcIndex.wf (c : CcIndex) : Prop :=
  [c.overflow, c.underflow, c.divzero, c.equalornot].Nodup

/-- The parameters are legal: OPMAP, CC_INDEX and CC_PACK are injective and the two faults have two
different bits (R5). -/
abbrev Config.wf (c : Config) : Prop :=
  c.opmap.wf ∧ c.ccIndex.wf ∧ c.ccPack.toList.Nodup ∧ c.mfrIllop ≠ c.mfrMem

end Sys2Proof
end

