-- ==== Sys2Proof/Decode.lean ====
section
/-! DEFINITION. From a 16-bit word to an instruction and back (spec/30_encoding.md R90 to R100), and
the default opcode numbers (R98). -/

namespace Sys2Proof

/-- The default OPMAP (R98, D1). -/
def defaultOpmap : Opmap where
  ldr := 0o01
  str := 0o02
  lda := 0o03
  amr := 0o04
  smr := 0o05
  air := 0o06
  sir := 0o07
  jz := 0o10
  jne := 0o11
  jcc := 0o12
  jma := 0o13
  jsr := 0o14
  rfs := 0o15
  sob := 0o16
  src := 0o31
  rrc := 0o32
  ldx := 0o41
  stx := 0o42
  inp := 0o61
  out := 0o62
  mlt := 0o70
  dvd := 0o71
  trr := 0o72
  and := 0o73
  orr := 0o74
  not := 0o75

/-! ## Fields (R91 to R97) -/

/-- OP, IR[15:10] (R91). -/
def opField (w : Word) : BitVec 6 := w.extractLsb' 10 6

/-- R, IR[9:8] (R91): a general register, or the condition bit of JCC. -/
def regField (w : Word) : Fin 4 := (w.extractLsb' 8 2).toFin

/-- The second register ry, IR[7:6] (R93). -/
def ryField (w : Word) : Fin 4 := (w.extractLsb' 6 2).toFin

/-- The index register a 2-bit selector names; selector 0 names none (R125). -/
def xregOfSelector (b : BitVec 2) : Option XReg :=
  if b = 1 then some .x1 else if b = 2 then some .x2 else if b = 3 then some .x3 else none

/-- IX, IR[7:6] (R91). -/
def ixField (w : Word) : Option XReg := xregOfSelector (w.extractLsb' 6 2)

/-- I, IR[5] (R91). -/
def indirectField (w : Word) : Bool := w.getLsbD 5

/-- ADDR, IR[4:0]: the address (R95), the immediate of RFS or the device identifier (R96). -/
def addrField (w : Word) : BitVec 5 := w.extractLsb' 0 5

/-- The address operand: IX, I and ADDR (R95). -/
def addrOperandField (w : Word) : AddrOperand where
  ix := ixField w
  indirect := indirectField w
  addr := addrField w

/-- The arithmetic immediate, IR[7:0] (R94). -/
def immField (w : Word) : BitVec 8 := w.extractLsb' 0 8

/-- A/L, IR[7] (R92). -/
def alField (w : Word) : Bool := w.getLsbD 7

/-- L/R, IR[6] (R92). -/
def lrField (w : Word) : Bool := w.getLsbD 6

/-- COUNT, IR[3:0] (R92). -/
def countField (w : Word) : BitVec 4 := w.extractLsb' 0 4

/-! ## Decoding (R98, R100) -/

/-- What decoding a word answers: an instruction, or that its opcode is not in the map (R100). -/
inductive DecodeResult where
  | ok (i : Instr)
  | illegalOpcode (op : BitVec 6)
  deriving DecidableEq, Repr

/-- The mnemonic an opcode number stands for: "one opcode is one instruction" (R98). -/
def Opmap.mnemonic (m : Opmap) (op : BitVec 6) : Option Mnemonic :=
  Mnemonic.all.find? fun k => m.opcode k == op

/-- The fields a mnemonic's instruction reads from the word (R99). -/
def instrOf (w : Word) : Mnemonic → Instr
  | .hlt => .hlt
  | .ldr => .ldr (regField w) (addrOperandField w)
  | .str => .str (regField w) (addrOperandField w)
  | .lda => .lda (regField w) (addrOperandField w)
  | .amr => .amr (regField w) (addrOperandField w)
  | .smr => .smr (regField w) (addrOperandField w)
  | .air => .air (regField w) (immField w)
  | .sir => .sir (regField w) (immField w)
  | .jz => .jz (regField w) (addrOperandField w)
  | .jne => .jne (regField w) (addrOperandField w)
  | .jcc => .jcc (regField w) (addrOperandField w)
  | .jma => .jma (addrOperandField w)
  | .jsr => .jsr (addrOperandField w)
  | .rfs => .rfs (addrField w)
  | .sob => .sob (regField w) (addrOperandField w)
  | .src => .src (regField w) (alField w) (lrField w) (countField w)
  | .rrc => .rrc (regField w) (alField w) (lrField w) (countField w)
  | .ldx => .ldx (ixField w) (indirectField w) (addrField w)
  | .stx => .stx (ixField w) (indirectField w) (addrField w)
  | .inp => .inp (regField w) (addrField w)
  | .out => .out (regField w) (addrField w)
  | .mlt => .mlt (regField w) (ryField w)
  | .dvd => .dvd (regField w) (ryField w)
  | .trr => .trr (regField w) (ryField w)
  | .and => .and (regField w) (ryField w)
  | .orr => .orr (regField w) (ryField w)
  | .not => .not (regField w)

/-- Decoding: the opcode alone selects the instruction (R98); a word whose opcode is not in the map
is illegal (R100). -/
def decode (m : Opmap) (w : Word) : DecodeResult :=
  match m.mnemonic (opField w) with
  | some k => .ok (instrOf w k)
  | none => .illegalOpcode (opField w)

/-! ## Encoding (R91, R92, R111) -/

/-- The mnemonic of an instruction. -/
def Instr.mnemonic : Instr → Mnemonic
  | .hlt => .hlt
  | .ldr .. => .ldr
  | .str .. => .str
  | .lda .. => .lda
  | .amr .. => .amr
  | .smr .. => .smr
  | .air .. => .air
  | .sir .. => .sir
  | .jz .. => .jz
  | .jne .. => .jne
  | .jcc .. => .jcc
  | .jma .. => .jma
  | .jsr .. => .jsr
  | .rfs .. => .rfs
  | .sob .. => .sob
  | .src .. => .src
  | .rrc .. => .rrc
  | .ldx .. => .ldx
  | .stx .. => .stx
  | .inp .. => .inp
  | .out .. => .out
  | .mlt .. => .mlt
  | .dvd .. => .dvd
  | .trr .. => .trr
  | .and .. => .and
  | .orr .. => .orr
  | .not .. => .not

/-- The 2 bits of a register number. -/
def regBits (r : Fin 4) : BitVec 2 := BitVec.ofFin r

/-- The 2-bit selector of an index register, 0 for none (R125). -/
def selectorBits : Option XReg → BitVec 2
  | none => 0
  | some .x1 => 1
  | some .x2 => 2
  | some .x3 => 3

/-- The general format, fields packed high to low (R91). -/
def packGeneral (op : BitVec 6) (r ix : BitVec 2) (i : Bool) (addr : BitVec 5) : Word :=
  op ++ r ++ ix ++ BitVec.ofBool i ++ addr

/-- The general format with an address operand. -/
def packAddr (op : BitVec 6) (r : BitVec 2) (a : AddrOperand) : Word :=
  packGeneral op r (selectorBits a.ix) a.indirect a.addr

/-- The general format with the 8-bit immediate in the place of IX, I and ADDR (R94). -/
def packImm (op : BitVec 6) (r : BitVec 2) (imm : BitVec 8) : Word :=
  op ++ r ++ imm

/-- The shift/rotate format, with 0 in the two unused bits (R92). -/
def packShift (op : BitVec 6) (r : BitVec 2) (al lr : Bool) (count : BitVec 4) : Word :=
  op ++ r ++ BitVec.ofBool al ++ BitVec.ofBool lr ++ 0#2 ++ count

/-- The word of an instruction: its opcode number and its fields, ignored fields 0 (R91 to R96,
R111). -/
def encode (m : Opmap) (i : Instr) : Word :=
  let op := m.opcode i.mnemonic
  match i with
  | .hlt => packGeneral op 0 0 false 0
  | .ldr r a => packAddr op (regBits r) a
  | .str r a => packAddr op (regBits r) a
  | .lda r a => packAddr op (regBits r) a
  | .amr r a => packAddr op (regBits r) a
  | .smr r a => packAddr op (regBits r) a
  | .air r imm => packImm op (regBits r) imm
  | .sir r imm => packImm op (regBits r) imm
  | .jz r a => packAddr op (regBits r) a
  | .jne r a => packAddr op (regBits r) a
  | .jcc c a => packAddr op (regBits c) a
  | .jma a => packAddr op 0 a
  | .jsr a => packAddr op 0 a
  | .rfs imm => packGeneral op 0 0 false imm
  | .sob r a => packAddr op (regBits r) a
  | .src r al lr count => packShift op (regBits r) al lr count
  | .rrc r al lr count => packShift op (regBits r) al lr count
  | .ldx x ind addr => packGeneral op 0 (selectorBits x) ind addr
  | .stx x ind addr => packGeneral op 0 (selectorBits x) ind addr
  | .inp r devid => packGeneral op (regBits r) 0 false devid
  | .out r devid => packGeneral op (regBits r) 0 false devid
  | .mlt rx ry => packGeneral op (regBits rx) (regBits ry) false 0
  | .dvd rx ry => packGeneral op (regBits rx) (regBits ry) false 0
  | .trr rx ry => packGeneral op (regBits rx) (regBits ry) false 0
  | .and rx ry => packGeneral op (regBits rx) (regBits ry) false 0
  | .orr rx ry => packGeneral op (regBits rx) (regBits ry) false 0
  | .not rx => packGeneral op (regBits rx) 0 false 0

/-- The bits of the word that an instruction of this mnemonic reads (R99), the opcode among them. -/
def readMask : Mnemonic → Word
  | .hlt => 0xFC00
  | .ldr | .str | .lda | .amr | .smr | .air | .sir | .jz | .jne | .jcc | .sob => 0xFFFF
  | .jma | .jsr | .ldx | .stx => 0xFCFF
  | .rfs => 0xFC1F
  | .src | .rrc => 0xFFCF
  | .inp | .out => 0xFF1F
  | .mlt | .dvd | .trr | .and | .orr => 0xFFC0
  | .not => 0xFF00

/-- The instruction read from a word of the opcode table, with the default OPMAP. An instruction is
one word (R90), so bits above bit 15 do not occur. -/
def decodeTableWord (nbits w : Nat) : Option Instr :=
  match decode defaultOpmap (BitVec.ofNat 16 (w % 2 ^ nbits)) with
  | .ok i => some i
  | .illegalOpcode _ => none

end Sys2Proof
end

