-- ==== Sys2Proof/Machine/Defaults.lean ====
section
/-! DEFINITION. The default value of every open parameter (spec/00_scope.md R5) and the fixed sizes
(R4). Each value is a definition of its own. -/

namespace Sys2Proof.Machine

/-- MEM_WORDS (R4): addresses 0 to 2047. -/
abbrev memWords : Nat := 2048

/-- CC_INDEX: OVERFLOW 0, UNDERFLOW 1, DIVZERO 2, EQUALORNOT 3 (D11). -/
def defaultCcIndex : CcIndex where
  overflow := 0
  underflow := 1
  divzero := 2
  equalornot := 3

/-- CC_PACK: `cc[i]` is bit i of the host's value (D11). -/
def defaultCcPack : Vector (Fin 4) 4 := #v[0, 1, 2, 3]

/-- MFR_ILLOP: bit 2, weight 4 (D12). -/
def defaultMfrIllop : Fin 4 := 2

/-- MFR_MEM: bit 3, weight 8 (D12). -/
def defaultMfrMem : Fin 4 := 3

/-- LINK: general register 3 (D10). -/
def defaultLink : Reg := 3

/-- ARITH: signed (D13). -/
def defaultArith : Arith := .signed

/-- LR_LEFT: the L/R flag 1 means left (D6). -/
def defaultLrLeft : Bool := true

/-- AL_LOGICAL: the A/L flag 1 means logical (D6). -/
def defaultAlLogical : Bool := true

/-- DZ_POLICY: continue, "continue, flag only" (D17). -/
def defaultDzPolicy : DzPolicy := .continue

/-- The default parameters (R5). -/
def defaultConfig : Config where
  opmap := defaultOpmap
  ccIndex := defaultCcIndex
  ccPack := defaultCcPack
  mfrIllop := defaultMfrIllop
  mfrMem := defaultMfrMem
  link := defaultLink
  arith := defaultArith
  lrLeft := defaultLrLeft
  alLogical := defaultAlLogical
  dzPolicy := defaultDzPolicy

end Sys2Proof.Machine
end

