-- ==== Sys2Proof/Machine/State.lean ====
section
/-! DEFINITION. The state of the core (spec/10_state.md), as plain data, its value at power-on, and
the reasons a memory layer can fail or a step can be refused. -/

namespace Sys2Proof.Machine

/-- The three index registers `X[1]`, `X[2]`, `X[3]` (R21). -/
structure XRegs where
  x1 : Word
  x2 : Word
  x3 : Word
  deriving DecidableEq, Repr

/-- Memory contents: (cell, byte) pairs, cells strictly rising, no zero byte listed; an unlisted cell
reads 0 (R28, R39). The word at address a lies in the cells 2a (bits 15 to 8) and 2a + 1 (bits 7 to
0); the spec has no bytes (R69), so which half lies first is the model's (DESIGN CHOICE, log 2). -/
abbrev Memory := List Host.Cell

/-- One valid cache line: the memory address it holds, the word, and its FIFO insertion order
(R29). -/
structure Line where
  tag : Nat
  data : Word
  order : Nat
  deriving DecidableEq, Repr

/-- The cache (R29): 16 lines, an invalid one being `none` (its tag, data and order are "unspecified
and never read", R39), the two counters, and the counter `order` is copied from. -/
structure Cache where
  lines : Vector (Option Line) 16
  hits : Nat
  misses : Nat
  seq : Nat
  deriving DecidableEq, Repr

/-- Everything the machine holds between steps (R34), with the console's two sides (R190, R193) and
the parameters of R5. -/
structure State where
  /-- `R[0]` to `R[3]` (R20). -/
  r : Vector Word 4
  /-- `X[1]` to `X[3]` (R21). -/
  x : XRegs
  /-- PC (R22). -/
  pc : BitVec 12
  /-- IR (R23). -/
  ir : Word
  /-- MAR (R24). -/
  mar : BitVec 12
  /-- MBR (R24). -/
  mbr : Word
  /-- CC (R25): `cc[i]` is bit i. -/
  cc : BitVec 4
  /-- MFR (R26). -/
  mfr : BitVec 4
  /-- The halted flag (R27). -/
  halted : Bool
  /-- Mem (R28). -/
  mem : Memory
  /-- The cache (R29). -/
  cache : Cache
  /-- MODEL'S OWN: the answers the console supplier will give, next one first; when none is listed
  it answers `none` (DESIGN CHOICE, log 1). -/
  consoleIn : List (Option Int)
  /-- MODEL'S OWN: the words handed to the console consumer, oldest first (R193; log 1). -/
  consoleOut : List Word
  /-- MODEL'S OWN: the parameters of R5, which no step changes (DESIGN CHOICE, log 4). -/
  cfg : Config
  deriving DecidableEq, Repr

/-- The empty cache: every line invalid, counters 0 (R39, R40). -/
def Cache.empty : Cache where
  lines := Vector.replicate 16 none
  hits := 0
  misses := 0
  seq := 0

/-- Power-on, which is also the CPU's reset state (R38, R39, D27): every register, CC, MFR and halted
0, memory 0, the cache empty; no console traffic yet (log 1); the default parameters (R5; log 4). -/
def State.reset : State where
  r := Vector.replicate 4 0
  x := { x1 := 0, x2 := 0, x3 := 0 }
  pc := 0
  ir := 0
  mar := 0
  mbr := 0
  cc := 0
  mfr := 0
  halted := false
  mem := []
  cache := Cache.empty
  consoleIn := []
  consoleOut := []
  cfg := defaultConfig

/-- The run-time errors of the layers below the CPU (R200). "No runtime error type is thrown past
the CPU boundary" (R10): no step ends in one of these. -/
inductive Fault where
  /-- Raised by the memory controller and the cache for an address outside 0 to 2047 (R52, R62). The
  CPU turns it into the MemoryFault of R202, a next state; safe, since no step answers it. -/
  | addressOutOfRange
  deriving DecidableEq, Repr

/-- Why a step, or a host operation, has no answer: the spec gives the case no meaning. -/
inductive Refusal where
  /-- Raised only by an arm of exec for an instruction that has no meaning yet; safe. -/
  | notModelled (mnemonic : String)
  /-- Raised by LDX and STX with index selector 0 (R101 (a), D24); safe: the spec refuses it. -/
  | indexSelectorZero
  /-- Raised by MLT and DVD when rx or ry is odd (R101 (b), D15); safe: the spec refuses it. -/
  | oddRegister
  /-- Raised by IN for a device other than 0 and by OUT for a device other than 1 (R101 (c), D23);
  safe: the spec refuses it. -/
  | unknownDevice
  /-- Raised by the host's range dump for a range that leaves 0 to 2047 (U20); safe, never a step. -/
  | dumpOutOfRange
  /-- Raised by the host's loader for a line that is neither a pair nor a comment (U11); safe, never
  a step. -/
  | malformedLoadLine
  deriving DecidableEq, Repr

/-- The two faults of the CPU, which set an MFR bit and halt (R200). -/
inductive CpuFault where
  | illegalOpcode
  | memoryFault
  deriving DecidableEq, Repr

/-- What an access of the CPU, or a computation that makes one, answers: a value and the state after
it, or that MemoryFault was raised, with the state after the fault was taken (R10). -/
inductive Access (α : Type) where
  | done (v : α) (s : State)
  | stopped (s : State)
  deriving DecidableEq, Repr

end Sys2Proof.Machine
end

