-- ==== Sys2Proof/Machine/Ops.lean ====
section
/-! DEFINITION. The named operations over registers, memory and the cache, the CPU's access path
(spec/20_memory.md), and the one operation that takes a fault (spec/60_exceptions.md R200 to R207).
There is no return from a fault (R209): only the host's `unhalt` and `reset` leave the halted state
(Machine/HostOps.lean). -/

namespace Sys2Proof.Machine

/-- What a step answers. -/
abbrev Result := Host.Outcome State Fault Refusal

/-! ## Registers (R20 to R27): every read and write goes through these -/

/-- `R[i]` (R20). -/
def State.getR (s : State) (i : Reg) : Word := s.r[i]

/-- `R[i] <- v` (R20). -/
def State.setR (s : State) (i : Reg) (v : Word) : State := { s with r := s.r.set i v }

/-- `X[i]` of the index file (R21). -/
def XRegs.get (x : XRegs) : XReg → Word
  | .x1 => x.x1
  | .x2 => x.x2
  | .x3 => x.x3

/-- `X[i] <- v` in the index file (R21). -/
def XRegs.set (x : XRegs) (i : XReg) (v : Word) : XRegs :=
  match i with
  | .x1 => { x with x1 := v }
  | .x2 => { x with x2 := v }
  | .x3 => { x with x3 := v }

/-- `X[i]` (R21). -/
def State.getX (s : State) (i : XReg) : Word := s.x.get i

/-- `X[i] <- v` (R21). -/
def State.setX (s : State) (i : XReg) (v : Word) : State := { s with x := s.x.set i v }

/-- `PC <- v` (R22). -/
def State.setPc (s : State) (v : BitVec 12) : State := { s with pc := v }

/-- `IR <- v` (R23). -/
def State.setIr (s : State) (v : Word) : State := { s with ir := v }

/-- `MAR <- v` (R24). -/
def State.setMar (s : State) (v : BitVec 12) : State := { s with mar := v }

/-- `MBR <- v` (R24). -/
def State.setMbr (s : State) (v : Word) : State := { s with mbr := v }

/-- `CC <- v`, all four bits (R25). -/
def State.setCc (s : State) (v : BitVec 4) : State := { s with cc := v }

/-- `MFR <- v` (R26). -/
def State.setMfr (s : State) (v : BitVec 4) : State := { s with mfr := v }

/-- `halted <- b` (R27). -/
def State.setHalted (s : State) (b : Bool) : State := { s with halted := b }

/-- The memory array replaced (R28). -/
def State.setMem (s : State) (m : Memory) : State := { s with mem := m }

/-- The cache replaced (R29). -/
def State.setCache (s : State) (c : Cache) : State := { s with cache := c }

/-- The supplier's coming answers replaced (R190). -/
def State.setConsoleIn (s : State) (l : List (Option Int)) : State := { s with consoleIn := l }

/-- The words handed out replaced (R193). -/
def State.setConsoleOut (s : State) (l : List Word) : State := { s with consoleOut := l }

/-! ## The memory array (R28) -/

/-- The byte in a cell; an unlisted cell reads 0 (R39). -/
def Memory.readByte : Memory → Nat → BitVec 8
  | [], _ => 0
  | (k, b) :: rest, a => if k = a then b else Memory.readByte rest a

/-- The byte of a cell replaced, keeping cells strictly rising and no zero byte listed. -/
def Memory.writeByte : Memory → Nat → BitVec 8 → Memory
  | [], a, v => if v = 0 then [] else [(a, v)]
  | (k, b) :: rest, a, v =>
    if k < a then (k, b) :: Memory.writeByte rest a v
    else if k = a then (if v = 0 then rest else (a, v) :: rest)
    else if v = 0 then (k, b) :: rest else (a, v) :: (k, b) :: rest

/-- The word at an address: cell 2a holds bits 15 to 8, cell 2a + 1 bits 7 to 0 (log 2). -/
def Memory.readWord (m : Memory) (a : Nat) : Word :=
  m.readByte (2 * a) ++ m.readByte (2 * a + 1)

/-- The word at an address replaced. -/
def Memory.writeWord (m : Memory) (a : Nat) (v : Word) : Memory :=
  (m.writeByte (2 * a) (v.extractLsb' 8 8)).writeByte (2 * a + 1) (v.extractLsb' 0 8)

/-- The canonical form of a memory: cells strictly rising, none listed with the byte an unlisted cell
reads, none beyond the 2048 words (R28). -/
abbrev Memory.wf (m : Memory) : Prop :=
  (m.map Prod.fst).Pairwise (· < ·) ∧ ∀ c ∈ m, c.2 ≠ 0 ∧ c.1 < 2 * memWords

/-- `MemCtl.Read(a)` (R52). -/
def memCtlRead (a : Nat) (m : Memory) : Except Fault Word :=
  if a < memWords then .ok (m.readWord a) else .error .addressOutOfRange

/-- `MemCtl.Write(a, v)` (R52). -/
def memCtlWrite (a : Nat) (v : Word) (m : Memory) : Except Fault Memory :=
  if a < memWords then .ok (m.writeWord a v) else .error .addressOutOfRange

/-! ## The cache (R60 to R63) -/

/-- The line indices 0 to 15, in the order of the "linear scan" (R60). -/
def lineIndices : List (Fin 16) := [0, 1, 2, 3, 4, 5, 6, 7, 8, 9, 10, 11, 12, 13, 14, 15]

/-- The valid line whose tag is `a`, with its index; at most one can match (R30 (a), R60). -/
def Cache.lookup (c : Cache) (a : Nat) : Option (Fin 16 × Line) :=
  lineIndices.findSome? fun i =>
    match c.lines[i] with
    | some l => if l.tag = a then some (i, l) else none
    | none => none

/-- The lowest index with an invalid line (R63, D25). -/
def Cache.freeSlot (c : Cache) : Option (Fin 16) :=
  lineIndices.find? fun i => c.lines[i].isNone

/-- The insertion order of the line at an index (read only when every line is valid). -/
def Cache.orderAt (c : Cache) (i : Fin 16) : Nat :=
  match c.lines[i] with
  | some l => l.order
  | none => 0

/-- The index whose line has the smallest order: "the structurally oldest resident line" (R63). -/
def Cache.oldest (c : Cache) : Fin 16 :=
  lineIndices.foldl (fun b i => if c.orderAt i < c.orderAt b then i else b) 0

/-- Where a new line goes: "into a free slot if one exists", else over the oldest line (R63). -/
def Cache.slot (c : Cache) : Fin 16 :=
  match c.freeSlot with
  | some i => i
  | none => c.oldest

/-- `Install(a, v)` (R63). -/
def Cache.install (c : Cache) (a : Nat) (v : Word) : Cache :=
  { c with
    lines := c.lines.set c.slot (some { tag := a, data := v, order := c.seq })
    seq := c.seq + 1 }

/-- One more hit (R64). -/
def Cache.countHit (c : Cache) : Cache := { c with hits := c.hits + 1 }

/-- One more miss (R64). -/
def Cache.countMiss (c : Cache) : Cache := { c with misses := c.misses + 1 }

/-- The data of a line replaced, its order unchanged (R61). -/
def Cache.update (c : Cache) (i : Fin 16) (l : Line) (v : Word) : Cache :=
  { c with lines := c.lines.set i (some { l with data := v }) }

/-- `CacheRead(a)` (R60): the word and the cache after. -/
def cacheRead (a : Nat) (m : Memory) (c : Cache) : Except Fault (Word × Cache) :=
  if a < memWords then
    match c.lookup a with
    | some (_, l) => .ok (l.data, c.countHit)
    | none =>
      match memCtlRead a m with
      | .ok v => .ok (v, (c.install a v).countMiss)
      | .error f => .error f
  else .error .addressOutOfRange

/-- `CacheWrite(a, v)` (R61): the memory, written first, and the cache after. -/
def cacheWrite (a : Nat) (v : Word) (m : Memory) (c : Cache) : Except Fault (Memory × Cache) :=
  match memCtlWrite a v m with
  | .ok m' =>
    match c.lookup a with
    | some (i, l) => .ok (m', (c.update i l v).countHit)
    | none => .ok (m', (c.install a v).countMiss)
  | .error f => .error f

/-! ## Taking a fault (R200 to R202, R207) -/

/-- The MFR bit of a fault: parameters MFR_ILLOP and MFR_MEM (R26). -/
def faultBit (cfg : Config) : CpuFault → Fin 4
  | .illegalOpcode => cfg.mfrIllop
  | .memoryFault => cfg.mfrMem

/-- The 4-bit value with only bit i set. -/
def bitMask (i : Fin 4) : BitVec 4 := 1#4 <<< i.val

/-- Taking a fault, the complete effect (R207): its MFR bit is ORed in and halted becomes 1. Nothing
is saved, there is no vector and no mode. -/
def takeFault (f : CpuFault) (s : State) : State :=
  (s.setMfr (s.mfr ||| bitMask (faultBit s.cfg f))).setHalted true

/-! ## The CPU's access path (R66, R67) -/

/-- `MemRead(a, 1)` (R66): the bounds check is on `a` itself, not on what MAR holds. -/
def memRead (a : Nat) (s : State) : Access Word :=
  match cacheRead a s.mem s.cache with
  | .ok (v, c) => .done v (((s.setMar (BitVec.ofNat 12 a)).setCache c).setMbr v)
  | .error _ => .stopped (takeFault .memoryFault (s.setMar (BitVec.ofNat 12 a)))

/-- `MemWrite(a, 1, v)` (R67). -/
def memWrite (a : Nat) (v : Word) (s : State) : Access Unit :=
  match cacheWrite a v s.mem s.cache with
  | .ok (m, c) => .done () ((((s.setMar (BitVec.ofNat 12 a)).setMem m).setCache c).setMbr v)
  | .error _ => .stopped (takeFault .memoryFault (s.setMar (BitVec.ofNat 12 a)))

/-- Go on with the value of an access; a raised MemoryFault ends the step in the state the fault left
(R10, R128). -/
def Access.andThen {α : Type} (x : Access α) (k : α → State → Result) : Result :=
  match x with
  | .done v s => k v s
  | .stopped s => .next s

/-- `Fetch()` (R121): a MemoryFault leaves IR and PC unchanged. -/
def fetch (s : State) : Access Word :=
  match memRead s.pc.toNat s with
  | .done w t => .done w ((t.setIr w).setPc (s.pc + 1))
  | .stopped t => .stopped t

end Sys2Proof.Machine
end

