-- ==== Sys2Proof/Machine/Operands.lean ====
section
/-! DEFINITION. The operand forms: effective addresses (spec/40_cycle_ea_halt.md R124 to R127),
immediates (spec/30_encoding.md R94, R96), register pairs (spec/43_register_ops.md R161, R162) and
device identifiers (spec/46_io.md R190). -/

namespace Sys2Proof.Machine

/-- The index contribution (R125): 0 for selector 0, else the index register read unsigned. -/
def indexValue (ix : Option XReg) (s : State) : Nat :=
  match ix with
  | none => 0
  | some k => (s.getX k).toNat

/-- The address field plus the index, an integer sum that is not truncated (R124, R126). -/
def indexedAddress (a : AddrOperand) (s : State) : Nat :=
  a.addr.toNat + indexValue a.ix s

/-- `EA()` (R124): index first, then one level of indirection through memory. -/
def effectiveAddress (a : AddrOperand) (s : State) : Access Nat :=
  if a.indirect then
    match memRead (indexedAddress a s) s with
    | .done w t => .done w.toNat t
    | .stopped t => .stopped t
  else .done (indexedAddress a s) s

/-- `EA_noindex()` (R127): "same EA math but computed with no index contribution". -/
def effectiveAddressNoIndex (indirect : Bool) (addr : BitVec 5) (s : State) : Access Nat :=
  effectiveAddress { ix := none, indirect := indirect, addr := addr } s

/-- `sext_16(IR[7:0])` (R94). -/
def arithImmediate (imm : BitVec 8) : Word := imm.signExtend 16

/-- `zext_16(IR[4:0])` (R96 (a)). -/
def returnImmediate (imm : BitVec 5) : Word := imm.zeroExtend 16

/-- The second register of the pair that begins at rx (R161): `rx + 1`. -/
def pairLow (rx : Reg) : Reg := rx + 1

/-- MLT and DVD take even registers only (R101 (b)). -/
def evenPair (rx ry : Reg) : Bool := rx.val % 2 == 0 && ry.val % 2 == 0

/-- The console input's device identifier (R190). -/
def consoleInId : BitVec 5 := 0

/-- The console printer's device identifier (R190). -/
def consoleOutId : BitVec 5 := 1

end Sys2Proof.Machine
end

