-- ==== Sys2Proof/Machine/Flags.lean ====
section
/-! DEFINITION. The condition code bits (spec/10_state.md R25) and every computation that writes one:
OVERFLOW and UNDERFLOW of add and subtract (spec/42_arithmetic.md R150), DIVZERO
(spec/43_register_ops.md R162), EQUALORNOT (R163). -/

namespace Sys2Proof.Machine

/-- `cc[i]` (R25). -/
def State.getCcBit (s : State) (i : Fin 4) : Bool := s.cc.getLsbD i

/-- A 4-bit value with bit i replaced. -/
def putBit (v : BitVec 4) (i : Fin 4) (b : Bool) : BitVec 4 :=
  if b then v ||| bitMask i else v &&& ~~~ bitMask i

/-- `cc[i] <- b`, the other bits unchanged (R25). -/
def State.setCcBit (s : State) (i : Fin 4) (b : Bool) : State := s.setCc (putBit s.cc i b)

/-- The "widened" result W of an add or subtract, an exact integer (R150). -/
def widened (arith : Arith) (sub : Bool) (a b : Word) : Int :=
  match arith with
  | .signed => if sub then a.toInt - b.toInt else a.toInt + b.toInt
  | .unsigned => if sub then (a.toNat : Int) - b.toNat else (a.toNat : Int) + b.toNat

/-- OVERFLOW: W is above the range of 16 bits (R150). -/
def isOverflow (arith : Arith) (w : Int) : Bool :=
  match arith with
  | .signed => decide (w > 32767)
  | .unsigned => decide (w > 65535)

/-- UNDERFLOW: W is below the range of 16 bits (R150). -/
def isUnderflow (arith : Arith) (w : Int) : Bool :=
  match arith with
  | .signed => decide (w < -32768)
  | .unsigned => decide (w < 0)

/-- Both flags of an add or subtract, written on every execution (R150, D14). -/
def setArithFlags (w : Int) (s : State) : State :=
  (s.setCcBit s.cfg.ccIndex.overflow (isOverflow s.cfg.arith w)).setCcBit
    s.cfg.ccIndex.underflow (isUnderflow s.cfg.arith w)

/-- `AddSub(r, b, sub)` (R150): the flags, then the truncated result. -/
def addSub (r : Reg) (b : Word) (sub : Bool) (s : State) : State :=
  let w := widened s.cfg.arith sub (s.getR r) b
  (setArithFlags w s).setR r (BitVec.ofInt 16 w)

/-- DIVZERO (R162). -/
def setDivZero (b : Bool) (s : State) : State := s.setCcBit s.cfg.ccIndex.divzero b

/-- EQUALORNOT (R163). -/
def setEqual (b : Bool) (s : State) : State := s.setCcBit s.cfg.ccIndex.equalornot b

end Sys2Proof.Machine
end

