-- ==== Sys2Proof/Machine/Arithmetic.lean ====
section
/-! DEFINITION. Memory and immediate arithmetic: AMR, SMR, AIR, SIR (spec/42_arithmetic.md R150 to
R154). -/

namespace Sys2Proof.Machine

/-- AMR (R151): add memory to register. -/
def execAmr (r : Reg) (a : AddrOperand) (s : State) : Result :=
  (effectiveAddress a s).andThen fun e t =>
    (memRead e t).andThen fun b u => .next (addSub r b false u)

/-- SMR (R152): register minus memory. -/
def execSmr (r : Reg) (a : AddrOperand) (s : State) : Result :=
  (effectiveAddress a s).andThen fun e t =>
    (memRead e t).andThen fun b u => .next (addSub r b true u)

/-- AIR (R153): add the sign-extended immediate. -/
def execAir (r : Reg) (immed : BitVec 8) (s : State) : Result :=
  .next (addSub r (arithImmediate immed) false s)

/-- SIR (R154): subtract the sign-extended immediate. -/
def execSir (r : Reg) (immed : BitVec 8) (s : State) : Result :=
  .next (addSub r (arithImmediate immed) true s)

end Sys2Proof.Machine
end

