-- ==== Sys2Proof/Machine/Control.lean ====
section
/-! DEFINITION. The halt family: HLT (spec/40_cycle_ea_halt.md R131). -/

namespace Sys2Proof.Machine

/-- HLT (R131): "Sets the halted flag; no further state change." -/
def execHlt (s : State) : Result := .next (s.setHalted true)

end Sys2Proof.Machine
end

