-- ==== Sys2Proof/Machine/InOut.lean ====
section
/-! DEFINITION. Input and output: IN, OUT (spec/46_io.md R190 to R193). -/

namespace Sys2Proof.Machine

/-- `ConsoleIn()` (R190): the supplier's next answer, which the call consumes; `none` is the
document's "not yet available", and also the answer when the script is exhausted (log 1). -/
def consolePoll (s : State) : Option Int × State :=
  match s.consoleIn with
  | [] => (none, s)
  | t :: rest => (t, s.setConsoleIn rest)

/-- `ConsoleOut(w)` (R190): one word handed over, after those before it (R193). -/
def consoleEmit (w : Word) (s : State) : State := s.setConsoleOut (s.consoleOut ++ [w])

/-- IN (R191): a value goes to R[r], truncated; with none available PC goes back to this IN. A device
other than 0 is refused (R101 (c)). -/
def execInp (r : Reg) (devid : BitVec 5) (s : State) : Result :=
  if devid = consoleInId then
    match consolePoll s with
    | (some n, t) => .next (t.setR r (BitVec.ofInt 16 n))
    | (none, t) => .next (t.setPc (t.pc - 1))
  else .refused .unknownDevice

/-- OUT (R192): the 16-bit pattern of R[r]; never retries. A device other than 1 is refused
(R101 (c)). -/
def execOut (r : Reg) (devid : BitVec 5) (s : State) : Result :=
  if devid = consoleOutId then .next (consoleEmit (s.getR r) s) else .refused .unknownDevice

end Sys2Proof.Machine
end

