-- ==== Sys2Proof/Machine/LoadStore.lean ====
section
/-! DEFINITION. Load and store: LDR, STR, LDA, LDX, STX (spec/41_load_store.md R140 to R144). -/

namespace Sys2Proof.Machine

/-- LDR (R140). -/
def execLdr (r : Reg) (a : AddrOperand) (s : State) : Result :=
  (effectiveAddress a s).andThen fun e t =>
    (memRead e t).andThen fun v u => .next (u.setR r v)

/-- STR (R141). -/
def execStr (r : Reg) (a : AddrOperand) (s : State) : Result :=
  (effectiveAddress a s).andThen fun e t =>
    (memWrite e (t.getR r) t).andThen fun _ u => .next u

/-- LDA (R142): the EA itself, truncated by the register write, never checked against memory. -/
def execLda (r : Reg) (a : AddrOperand) (s : State) : Result :=
  (effectiveAddress a s).andThen fun e t => .next (t.setR r (BitVec.ofNat 16 e))

/-- LDX (R143): the address is not indexed; selector 0 is refused (R101 (a)). -/
def execLdx (x : Option XReg) (indirect : Bool) (addr : BitVec 5) (s : State) : Result :=
  match x with
  | none => .refused .indexSelectorZero
  | some k =>
    (effectiveAddressNoIndex indirect addr s).andThen fun e t =>
      (memRead e t).andThen fun v u => .next (u.setX k v)

/-- STX (R144): the address is not indexed; selector 0 is refused (R101 (a)). -/
def execStx (x : Option XReg) (indirect : Bool) (addr : BitVec 5) (s : State) : Result :=
  match x with
  | none => .refused .indexSelectorZero
  | some k =>
    (effectiveAddressNoIndex indirect addr s).andThen fun e t =>
      (memWrite e (t.getX k) t).andThen fun _ u => .next u

end Sys2Proof.Machine
end

