-- ==== Sys2Proof/Machine/RegisterOps.lean ====
section
/-! DEFINITION. Register-to-register operations: MLT, DVD, TRR, AND, ORR, NOT
(spec/43_register_ops.md R160 to R166). All sources are read before any destination is written
(R160). -/

namespace Sys2Proof.Machine

/-- The exact signed product as a 32-bit pattern (R161). -/
def product32 (a b : Word) : BitVec 32 := BitVec.ofInt 32 (a.toInt * b.toInt)

/-- A register pair written: rx the first value, rx + 1 the second (R161, R162). -/
def State.setPair (s : State) (rx : Reg) (first second : Word) : State :=
  (s.setR rx first).setR (pairLow rx) second

/-- MLT (R161): the high half in rx, the low half in rx + 1; odd registers are refused. -/
def execMlt (rx ry : Reg) (s : State) : Result :=
  if evenPair rx ry then
    let p := product32 (s.getR rx) (s.getR ry)
    .next (s.setPair rx (p.extractLsb' 16 16) (p.extractLsb' 0 16))
  else .refused .oddRegister

/-- What a divide by zero does beyond setting DIVZERO (R162, DZ_POLICY). -/
def divZeroPolicy (s : State) : State :=
  match s.cfg.dzPolicy with
  | .continue => s
  | .halt => s.setHalted true

/-- DVD (R162): signed quotient toward zero in rx, remainder in rx + 1; a zero divisor sets DIVZERO
and produces no result; odd registers are refused. -/
def execDvd (rx ry : Reg) (s : State) : Result :=
  if evenPair rx ry then
    let a := (s.getR rx).toInt
    let b := (s.getR ry).toInt
    if s.getR ry = 0 then .next (divZeroPolicy (setDivZero true s))
    else
      let q := a.tdiv b
      .next ((setDivZero false s).setPair rx (BitVec.ofInt 16 q) (BitVec.ofInt 16 (a - q * b)))
  else .refused .oddRegister

/-- TRR (R163): EQUALORNOT records whether the two patterns are equal. -/
def execTrr (rx ry : Reg) (s : State) : Result :=
  .next (setEqual (s.getR rx == s.getR ry) s)

/-- AND (R164). -/
def execAnd (rx ry : Reg) (s : State) : Result := .next (s.setR rx (s.getR rx &&& s.getR ry))

/-- ORR (R165). -/
def execOrr (rx ry : Reg) (s : State) : Result := .next (s.setR rx (s.getR rx ||| s.getR ry))

/-- NOT (R166). -/
def execNot (rx : Reg) (s : State) : Result := .next (s.setR rx (~~~ s.getR rx))

end Sys2Proof.Machine
end

