-- ==== Sys2Proof/Machine/ShiftRotate.lean ====
section
/-! DEFINITION. Shift and rotate: SRC, RRC (spec/45_shift_rotate.md R180 to R182). -/

namespace Sys2Proof.Machine

/-- Whether the L/R flag means left: parameter LR_LEFT (R180). -/
def isLeft (cfg : Config) (lr : Bool) : Bool := lr == cfg.lrLeft

/-- Whether the A/L flag means logical: parameter AL_LOGICAL (R180). -/
def isLogical (cfg : Config) (al : Bool) : Bool := al == cfg.alLogical

/-- Arithmetic left: bit 15 kept, bits 14 to 0 shifted, zeros entering at bit 0 (R181, D7). -/
def arithLeft (v : Word) (c : Nat) : Word :=
  v.extractLsb' 15 1 ++ (v.extractLsb' 0 15 <<< c)

/-- The four shifts (R181). -/
def shiftWord (logical left : Bool) (v : Word) (c : Nat) : Word :=
  match logical, left with
  | true, true => v <<< c
  | true, false => v >>> c
  | false, false => v.sshiftRight c
  | false, true => arithLeft v c

/-- The two rotates, "circularly across all 16 bits" (R182). -/
def rotateWord (left : Bool) (v : Word) (c : Nat) : Word :=
  if left then v.rotateLeft c else v.rotateRight c

/-- SRC (R181). -/
def execSrc (r : Reg) (al lr : Bool) (count : BitVec 4) (s : State) : Result :=
  .next (s.setR r (shiftWord (isLogical s.cfg al) (isLeft s.cfg lr) (s.getR r) count.toNat))

/-- RRC (R182): "regardless of mode", so the A/L flag plays no part. -/
def execRrc (r : Reg) (_al lr : Bool) (count : BitVec 4) (s : State) : Result :=
  .next (s.setR r (rotateWord (isLeft s.cfg lr) (s.getR r) count.toNat))

end Sys2Proof.Machine
end

