-- ==== Sys2Proof/Machine/Transfer.lean ====
section
/-! DEFINITION. Transfer of control: JZ, JNE, JCC, JMA, JSR, RFS, SOB (spec/44_transfer.md R169 to
R176). PC already holds the address of the next instruction (R169 (a)), and EA is computed whether or
not the jump is taken (R169 (f)). -/

namespace Sys2Proof.Machine

/-- `PC <- e`, which stores `trunc_12(e)` (R169 (b)). -/
def jumpTo (e : Nat) (s : State) : State := s.setPc (BitVec.ofNat 12 e)

/-- PC <- e when the condition holds, else PC keeps its value (R169 (a)). -/
def jumpIf (b : Bool) (e : Nat) (s : State) : State := if b then jumpTo e s else s

/-- JZ (R170). -/
def execJz (r : Reg) (a : AddrOperand) (s : State) : Result :=
  (effectiveAddress a s).andThen fun e t => .next (jumpIf (t.getR r == 0) e t)

/-- JNE (R171). -/
def execJne (r : Reg) (a : AddrOperand) (s : State) : Result :=
  (effectiveAddress a s).andThen fun e t => .next (jumpIf (t.getR r != 0) e t)

/-- JCC (R172): the tested bit is not cleared. -/
def execJcc (i : Fin 4) (a : AddrOperand) (s : State) : Result :=
  (effectiveAddress a s).andThen fun e t => .next (jumpIf (t.getCcBit i) e t)

/-- JMA (R173). -/
def execJma (a : AddrOperand) (s : State) : Result :=
  (effectiveAddress a s).andThen fun e t => .next (jumpTo e t)

/-- JSR (R174): the already-advanced PC into the linkage register, then the jump. -/
def execJsr (a : AddrOperand) (s : State) : Result :=
  (effectiveAddress a s).andThen fun e t =>
    .next (jumpTo e (t.setR t.cfg.link (t.pc.zeroExtend 16)))

/-- RFS (R175): the immediate into R[0], then PC from the linkage register. -/
def execRfs (immed : BitVec 5) (s : State) : Result :=
  let t := s.setR 0 (returnImmediate immed)
  .next (jumpTo (t.getR t.cfg.link).toNat t)

/-- SOB (R176): decrement, then jump while the new value, read signed, is positive. -/
def execSob (r : Reg) (a : AddrOperand) (s : State) : Result :=
  (effectiveAddress a s).andThen fun e t =>
    let u := t.setR r (t.getR r - 1)
    .next (jumpIf (decide ((u.getR r).toInt > 0)) e u)

end Sys2Proof.Machine
end

