-- ==== Sys2Proof/Machine/Dispatch.lean ====
section
/-! DEFINITION. The dispatch of decode-and-execute (spec/40_cycle_ea_halt.md R122): one arm per
instruction, each a call of its meaning. -/

namespace Sys2Proof.Machine

def exec (i : Instr) (s : State) : Host.Outcome State Fault Refusal :=
  match i with
  | .hlt => Sys2Proof.Machine.execHlt s
  | .ldr r a => Sys2Proof.Machine.execLdr r a s
  | .str r a => Sys2Proof.Machine.execStr r a s
  | .lda r a => Sys2Proof.Machine.execLda r a s
  | .amr r a => Sys2Proof.Machine.execAmr r a s
  | .smr r a => Sys2Proof.Machine.execSmr r a s
  | .air r immed => Sys2Proof.Machine.execAir r immed s
  | .sir r immed => Sys2Proof.Machine.execSir r immed s
  | .jz r a => Sys2Proof.Machine.execJz r a s
  | .jne r a => Sys2Proof.Machine.execJne r a s
  | .jcc c a => Sys2Proof.Machine.execJcc c a s
  | .jma a => Sys2Proof.Machine.execJma a s
  | .jsr a => Sys2Proof.Machine.execJsr a s
  | .rfs immed => Sys2Proof.Machine.execRfs immed s
  | .sob r a => Sys2Proof.Machine.execSob r a s
  | .src r al lr count => Sys2Proof.Machine.execSrc r al lr count s
  | .rrc r al lr count => Sys2Proof.Machine.execRrc r al lr count s
  | .ldx x indirect addr => Sys2Proof.Machine.execLdx x indirect addr s
  | .stx x indirect addr => Sys2Proof.Machine.execStx x indirect addr s
  | .inp r devid => Sys2Proof.Machine.execInp r devid s
  | .out r devid => Sys2Proof.Machine.execOut r devid s
  | .mlt rx ry => Sys2Proof.Machine.execMlt rx ry s
  | .dvd rx ry => Sys2Proof.Machine.execDvd rx ry s
  | .trr rx ry => Sys2Proof.Machine.execTrr rx ry s
  | .and rx ry => Sys2Proof.Machine.execAnd rx ry s
  | .orr rx ry => Sys2Proof.Machine.execOrr rx ry s
  | .not rx => Sys2Proof.Machine.execNot rx s

end Sys2Proof.Machine
end

