-- ==== Sys2Proof/Machine/Cycle.lean ====
section
/-! DEFINITION. The instruction cycle (spec/40_cycle_ea_halt.md R120 to R122), and how an instruction
word is placed where the next fetch reads it. -/

namespace Sys2Proof.Machine

/-- `DecodeExecute()` (R122), on the word the fetch left in IR. -/
def decodeExecute (s : State) : Result :=
  match decode s.cfg.opmap s.ir with
  | .ok i => exec i s
  | .illegalOpcode _ => .next (takeFault .illegalOpcode s)

/-- `step()` (R120): "exactly one fetch+decode-execute"; the halted flag is not tested (D22). -/
def cycle (s : State) : Result :=
  (fetch s).andThen fun _ t => decodeExecute t

/-- The data of the valid line holding address `a`, if there is one, replaced; nothing else. -/
def Cache.patch (c : Cache) (a : Nat) (v : Word) : Cache :=
  match c.lookup a with
  | some (i, l) => c.update i l v
  | none => c

/-- The word `v` placed at address `a` in memory and in the line that holds `a`, if any, counting no
access. -/
def placeWord (a : Nat) (v : Word) (s : State) : State :=
  (s.setMem (s.mem.writeWord a v)).setCache (s.cache.patch a v)

/-- Where the next instruction is placed: at PC, or at address 0 (PC set to it) when PC holds an
address with no memory behind it (R22). -/
def fetchPlace (s : State) : State := if s.pc.toNat < memWords then s else s.setPc 0

/-- The word `v` placed where the next fetch reads it. -/
def placeNext (v : Word) (s : State) : State :=
  let t := fetchPlace s
  placeWord t.pc.toNat v t

end Sys2Proof.Machine
end

