-- ==== Sys2Proof/Machine/Step.lean ====
section
/-! DEFINITION. One step of the machine (spec/40_cycle_ea_halt.md R120), and a state with a given
instruction next. -/

namespace Sys2Proof.Machine

/-- `step()` (R120). -/
def step (s : State) : Host.Outcome State Fault Refusal := cycle s

/-- The state with the instruction word `w` of `nbits` bits where the next fetch reads it (log 10). -/
def State.withFetchWord (s : State) (nbits w : Nat) : State :=
  placeNext (BitVec.ofNat 16 (w % 2 ^ nbits)) s

end Sys2Proof.Machine
end

