-- ==== Sys2Proof/Machine/HostOps.lean ====
section
/-! DEFINITION. The host's side of the core, acting only between steps (spec/60_exceptions.md R221 to
R225, spec/10_state.md R38 to R40, spec/20_memory.md R52 to R54, R60 to R65, spec/30_encoding.md R113,
spec/40_cycle_ea_halt.md R123, spec/70_reset_and_hazards.md R243). No step uses any of it. -/

namespace Sys2Proof.Machine

/-! ## Register accessors (R221) -/

/-- The named registers the host can get and set (R221). -/
inductive NamedReg where
  | pc
  | ir
  | mar
  | mbr
  | cc
  | mfr
  | r (i : Reg)
  | x (i : XReg)
  deriving DecidableEq, Repr

/-- The indices of the condition bits. -/
def ccIndices : List (Fin 4) := [0, 1, 2, 3]

/-- The value of CC the host reads: bit `pack[i]` shows `cc[i]` (CC_PACK, R25). -/
def packCc (pack : Vector (Fin 4) 4) (cc : BitVec 4) : BitVec 4 :=
  ccIndices.foldl (fun v (i : Fin 4) => putBit v pack[i] (cc.getLsbD i)) 0

/-- The condition bits of a value of CC the host writes (CC_PACK, R25). -/
def unpackCc (pack : Vector (Fin 4) 4) (v : BitVec 4) : BitVec 4 :=
  ccIndices.foldl (fun cc (i : Fin 4) => putBit cc i (v.getLsbD pack[i])) 0

/-- The declared width of a named register (R4, R8). -/
def NamedReg.width : NamedReg → Nat
  | .pc | .mar => 12
  | .cc | .mfr => 4
  | .ir | .mbr | .r _ | .x _ => 16

/-- A get "returns the stored pattern" (R221). -/
def hostGet (n : NamedReg) (s : State) : Nat :=
  match n with
  | .pc => s.pc.toNat
  | .ir => s.ir.toNat
  | .mar => s.mar.toNat
  | .mbr => s.mbr.toNat
  | .cc => (packCc s.cfg.ccPack s.cc).toNat
  | .mfr => s.mfr.toNat
  | .r i => (s.getR i).toNat
  | .x i => (s.getX i).toNat

/-- A set stores the value truncated to the register's width and has no other effect (R221). -/
def hostSet (n : NamedReg) (z : Int) (s : State) : State :=
  match n with
  | .pc => s.setPc (BitVec.ofInt 12 z)
  | .ir => s.setIr (BitVec.ofInt 16 z)
  | .mar => s.setMar (BitVec.ofInt 12 z)
  | .mbr => s.setMbr (BitVec.ofInt 16 z)
  | .cc => s.setCc (unpackCc s.cfg.ccPack (BitVec.ofInt 4 z))
  | .mfr => s.setMfr (BitVec.ofInt 4 z)
  | .r i => s.setR i (BitVec.ofInt 16 z)
  | .x i => s.setX i (BitVec.ofInt 16 z)

/-! ## halt, unhalt, reset, cache clear (R223, R38, R40) -/

/-- `halt()` (R223). -/
def hostHalt (s : State) : State := s.setHalted true

/-- `unhalt()` (R223): MFR is not cleared. -/
def hostUnhalt (s : State) : State := s.setHalted false

/-- `reset()` (R38): every register, CC, MFR and halted zeroed; memory and cache untouched (D27). -/
def resetCpu (s : State) : State :=
  { s with
    r := State.reset.r, x := State.reset.x, pc := State.reset.pc, ir := State.reset.ir,
    mar := State.reset.mar, mbr := State.reset.mbr, cc := State.reset.cc, mfr := State.reset.mfr,
    halted := State.reset.halted }

/-- The cache clear (R40): all lines invalid, counters 0; memory and registers unchanged. -/
def cacheClear (s : State) : State := s.setCache Cache.empty

/-! ## Snapshot, counters, dump (R54, R64, R65) -/

/-- The cache snapshot (R65): tag and data of each valid line, `none` for an invalid one. -/
def snapshot (s : State) : List (Option (Nat × Word)) :=
  lineIndices.map fun i => (s.cache.lines[i]).map fun l => (l.tag, l.data)

/-- "Hit rate = hits / total accesses" (R64); unspecified with no access (U10). -/
def hitRate (c : Cache) : Rat :=
  if c.hits + c.misses = 0 then Config.hitRateOfNothing
  else (c.hits : Rat) / ((c.hits + c.misses : Nat) : Rat)

/-- The diagnostic range dump of the words first to last (R54): reads memory only; a range with an end
outside the memory is refused (U20). The spec says nothing of a reversed range (first > last): with
both ends in memory it holds no word, so the answer is the empty list (DESIGN CHOICE, log 9). -/
def dump (first last : Nat) (s : State) : Except Refusal (List Word) :=
  if first < memWords ∧ last < memWords then
    .ok ((List.range' first (last + 1 - first)).map s.mem.readWord)
  else .error .dumpOutOfRange

/-! ## The memory controller and the cache, called with any integer (R52, R60 to R62) -/

/-- An access at an integer address: a negative one fails, as one beyond 2047 does (R52, R60,
R61). -/
def atInteger {α : Type} (access : Nat → Except Fault α) (a : Int) : Except Fault α :=
  if 0 ≤ a then access a.toNat else .error .addressOutOfRange

/-- `MemCtl.Read(a)`, "a any integer" (R52). -/
def memCtlReadAt (a : Int) (m : Memory) : Except Fault Word := atInteger (memCtlRead · m) a

/-- `MemCtl.Write(a, v)`, a any integer (R52). -/
def memCtlWriteAt (a : Int) (v : Word) (m : Memory) : Except Fault Memory :=
  atInteger (memCtlWrite · v m) a

/-- `CacheRead(a)`, a any integer (R60). -/
def cacheReadAt (a : Int) (m : Memory) (c : Cache) : Except Fault (Word × Cache) :=
  atInteger (cacheRead · m c) a

/-- `CacheWrite(a, v)`, a any integer (R61). -/
def cacheWriteAt (a : Int) (v : Word) (m : Memory) (c : Cache) : Except Fault (Memory × Cache) :=
  atInteger (cacheWrite · v m c) a

/-! ## The loader (R53, R113) -/

/-- Bulk load (R53): the pairs applied in order, straight to memory, behind the cache; a pair outside
0 to 2047 is skipped and reported (the second component). -/
def loadPairs : List (Int × Int) → State → State × List (Int × Int)
  | [], s => (s, [])
  | (a, v) :: rest, s =>
    match memCtlWriteAt a (BitVec.ofInt 16 v) s.mem with
    | .ok m => loadPairs rest (s.setMem m)
    | .error _ =>
      let p := loadPairs rest s
      (p.1, (a, v) :: p.2)

/-- The value of an octal digit. -/
def octalDigit (c : Char) : Option Nat :=
  if '0' ≤ c ∧ c ≤ '7' then some (c.toNat - '0'.toNat) else none

/-- Octal digits read on from the value so far, most significant first. -/
def octalFrom : Nat → List Char → Option Nat
  | n, [] => some n
  | n, c :: rest =>
    match octalDigit c with
    | some d => octalFrom (8 * n + d) rest
    | none => none

/-- An octal number of at least one digit (R113). -/
def octalNumber : List Char → Option Nat
  | [] => none
  | c :: rest => octalFrom 0 (c :: rest)

/-- A line of the loader's input (R113). -/
inductive LoadLine where
  | comment
  | pair (address value : Nat)
  | malformed
  deriving DecidableEq, Repr

/-- A loader line (R113): "lines starting with `#` are ignored", else an octal pair with one space
between (log 9). -/
def parseLoadLine (l : List Char) : LoadLine :=
  match l with
  | '#' :: _ => .comment
  | _ =>
    match octalNumber (l.takeWhile (· != ' ')), octalNumber ((l.dropWhile (· != ' ')).drop 1) with
    | some a, some v => .pair a v
    | _, _ => .malformed

/-- The pairs of the loader's input, in order; a malformed line is refused (U11). -/
def loadFilePairs : List (List Char) → Except Refusal (List (Int × Int))
  | [] => .ok []
  | l :: rest =>
    match parseLoadLine l with
    | .comment => loadFilePairs rest
    | .malformed => .error .malformedLoadLine
    | .pair a v =>
      match loadFilePairs rest with
      | .ok ps => .ok (((a : Int), (v : Int)) :: ps)
      | .error e => .error e

/-- The loader on a load file (R53, R113). -/
def loadFile (lines : List (List Char)) (s : State) : Except Refusal (State × List (Int × Int)) :=
  match loadFilePairs lines with
  | .ok ps => .ok (loadPairs ps s)
  | .error e => .error e

/-- The boot order of R243: load, clear the cache, reset, set PC to the entry (D29). -/
def boot (pairs : List (Int × Int)) (entry : Int) (s : State) : State :=
  hostSet .pc entry (resetCpu (cacheClear (loadPairs pairs s).1))

/-! ## run (R123, R225) -/

/-- `run(on_each_step, limit)` (R123): halted is tested before each step; the host's callback acts
after each completed step. -/
def run (onEachStep : State → State) : Nat → State → Result
  | 0, s => .next s
  | n + 1, s =>
    if s.halted then .next s
    else
      match step s with
      | .next t => run onEachStep n (onEachStep t)
      | .fault f => .fault f
      | .refused q => .refused q

/-- How a run ended, read off the state it left (R225). -/
inductive RunEnd where
  /-- halted is 0: the step limit was reached. -/
  | unfinished
  /-- halted is 1, MFR is 0 and the last executed instruction is HLT. -/
  | normal
  /-- halted is 1 and MFR is not 0. -/
  | fault
  /-- halted is 1, MFR is 0, and the last instruction is no HLT: the host's `halt()`, or a divide by
  zero under DZ_POLICY = halt. -/
  | stopped
  deriving DecidableEq, Repr

/-- The end of a run (R225): "the last executed instruction is HLT (IR[15:10] = 0)". -/
def runEnd (s : State) : RunEnd :=
  if s.halted then
    if s.mfr ≠ 0 then .fault
    else if opField s.ir = 0 then .normal
    else .stopped
  else .unfinished

end Sys2Proof.Machine
end

