-- ==== Sys2Proof/Safety.lean ====
section
/-! DEFINITION. What claims speak of: the invariants of memory and cache (spec/10_state.md R30), the
effective address read off the memory array alone (spec/40_cycle_ea_halt.md R124), the state a
MemoryFault leaves (R128, spec/60_exceptions.md R202), and which registers and flags an instruction
may write (spec/10_state.md R34). -/

namespace Sys2Proof.Machine

/-! ## Invariants (R30) -/

/-- R30 (a), (b), (c): tags of valid lines unique and in 0 to 2047, orders pairwise different, and
below the counter they are copied from. -/
abbrev Cache.wf (c : Cache) : Prop :=
  (∀ i j : Fin 16, ∀ l ∈ c.lines[i], ∀ k ∈ c.lines[j], l.tag = k.tag → i = j) ∧
  (∀ i : Fin 16, ∀ l ∈ c.lines[i], l.tag < memWords ∧ l.order < c.seq) ∧
  (∀ i j : Fin 16, ∀ l ∈ c.lines[i], ∀ k ∈ c.lines[j], l.order = k.order → i = j)

/-- R30 (e), of a cache and a memory: every valid line has `data = Mem[tag]`. -/
abbrev Cache.matches (c : Cache) (m : Memory) : Prop :=
  ∀ i : Fin 16, ∀ l ∈ c.lines[i], l.data = m.readWord l.tag

/-- R30 (e): every valid line has `data = Mem[tag]`. -/
abbrev State.coherent (s : State) : Prop := s.cache.matches s.mem

/-- The memory is in canonical form and the cache meets R30 (a), (b), (c), (e). -/
abbrev State.Inv (s : State) : Prop := s.mem.wf ∧ s.cache.wf ∧ s.coherent

/-- An address is resident: a valid line has it as its tag (R14). -/
abbrev Cache.resident (c : Cache) (a : Nat) : Prop :=
  ∃ i : Fin 16, ∃ l ∈ c.lines[i], l.tag = a

/-- The accesses counted since the last clear: hits and misses together (R64). -/
def Cache.accesses (c : Cache) : Nat := c.hits + c.misses

/-- The cache after reading a list of addresses, in order (R74). -/
def readAll (m : Memory) : List Nat → Cache → Cache
  | [], c => c
  | a :: rest, c =>
    match cacheRead a m c with
    | .ok (_, c') => readAll m rest c'
    | .error _ => readAll m rest c

/-! ## Effective addresses on the memory array alone (R68, R124) -/

/-- The effective address with `Mem` in the place of the access path (R124): `none` when the
indirect read is out of range. -/
def eaOnMemory (a : AddrOperand) (s : State) : Option Nat :=
  if a.indirect then
    if indexedAddress a s < memWords then some (s.mem.readWord (indexedAddress a s)).toNat else none
  else some (indexedAddress a s)

/-- The address operand of LDX and STX: no index contribution (R127). -/
def noIndex (indirect : Bool) (addr : BitVec 5) : AddrOperand :=
  { ix := none, indirect := indirect, addr := addr }

/-! ## Relations between the states around an instruction -/

/-- `t` is `s` but for MAR, MBR and the cache, which every CPU access writes (R66, R67). -/
def SameButAccess (s t : State) : Prop :=
  t = { s with mar := t.mar, mbr := t.mbr, cache := t.cache }

/-- `t` is what a MemoryFault during execute leaves of `s` (R128, R202): the MFR bit and halted, with
MAR, MBR and the cache of the accesses made before. -/
def MemoryFaultFrom (s t : State) : Prop :=
  t = { s with
    mfr := s.mfr ||| bitMask s.cfg.mfrMem, halted := true,
    mar := t.mar, mbr := t.mbr, cache := t.cache }

/-- `t` is `s` but for the cache. -/
def SameButCache (s t : State) : Prop := t = { s with cache := t.cache }

/-! ## What an instruction may write (R34) -/

/-- The general registers an instruction writes (R20, R34). -/
def destRegs (cfg : Config) : Instr → List Reg
  | .ldr r _ | .lda r _ | .amr r _ | .smr r _ | .air r _ | .sir r _ | .sob r _
  | .src r _ _ _ | .rrc r _ _ _ | .inp r _ | .and r _ | .orr r _ | .not r => [r]
  | .mlt rx _ | .dvd rx _ => [rx, rx + 1]
  | .jsr _ => [cfg.link]
  | .rfs _ => [0]
  | .hlt | .str .. | .jz .. | .jne .. | .jcc .. | .jma .. | .ldx .. | .stx .. | .out ..
  | .trr .. => []

/-- The condition bits an instruction writes (R25, R34). -/
def destCc (cfg : Config) : Instr → List (Fin 4)
  | .amr .. | .smr .. | .air .. | .sir .. => [cfg.ccIndex.overflow, cfg.ccIndex.underflow]
  | .dvd .. => [cfg.ccIndex.divzero]
  | .trr .. => [cfg.ccIndex.equalornot]
  | .hlt | .ldr .. | .str .. | .lda .. | .jz .. | .jne .. | .jcc .. | .jma .. | .jsr ..
  | .rfs .. | .sob .. | .src .. | .rrc .. | .ldx .. | .stx .. | .inp .. | .out .. | .mlt ..
  | .and .. | .orr .. | .not .. => []

/-- The instruction may write PC: the transfer family and the retry of IN (R22, R34). -/
def mayWritePc : Instr → Bool
  | .jz .. | .jne .. | .jcc .. | .jma .. | .jsr .. | .rfs .. | .sob .. | .inp .. => true
  | .hlt | .ldr .. | .str .. | .lda .. | .amr .. | .smr .. | .air .. | .sir .. | .src ..
  | .rrc .. | .ldx .. | .stx .. | .out .. | .mlt .. | .dvd .. | .trr .. | .and .. | .orr ..
  | .not .. => false

/-- The instruction stores to memory (R34). -/
def storesToMemory : Instr → Bool
  | .str .. | .stx .. => true
  | .hlt | .ldr .. | .lda .. | .amr .. | .smr .. | .air .. | .sir .. | .jz .. | .jne .. | .jcc ..
  | .jma .. | .jsr .. | .rfs .. | .sob .. | .src .. | .rrc .. | .ldx .. | .inp .. | .out ..
  | .mlt .. | .dvd .. | .trr .. | .and .. | .orr .. | .not .. => false

/-- The instruction may access memory: it computes an EA (R204). -/
def usesAddress : Instr → Bool
  | .ldr .. | .str .. | .lda .. | .amr .. | .smr .. | .jz .. | .jne .. | .jcc .. | .jma ..
  | .jsr .. | .sob .. | .ldx .. | .stx .. => true
  | .hlt | .air .. | .sir .. | .rfs .. | .src .. | .rrc .. | .inp .. | .out .. | .mlt ..
  | .dvd .. | .trr .. | .and .. | .orr .. | .not .. => false

end Sys2Proof.Machine
end

