-- ==== Sys2Proof/Certificates/Slice0/Obligations.lean ====
section
/-! DEFINITION. The statements for the provers, from the numbered rules of spec/. In a statement about
an instruction, `s` is the state after the fetch (PC already advanced, spec/44_transfer.md R169), and
`t` the state the instruction leaves. `t = { s with f := t.f, ... }` says that every field not named
is unchanged. `s.Inv` is the invariant of spec/10_state.md R30 with the canonical form of memory; that
every step keeps it is `StepKeepsTheInvariants`. -/

open Sys2Proof Sys2Proof.Machine

/-! ## Encoding -/

/-- Words written out from the encodings of spec/30_encoding.md and the family files decode to the
instructions they stand for, under the default OPMAP (the spec's decision D1). -/
def Obligations.SampleWordsDecode : Prop :=
  decode defaultOpmap 0x0000 = .ok .hlt ∧
  decode defaultOpmap 0x0481 = .ok (.ldr 0 ⟨some .x2, false, 1⟩) ∧
  decode defaultOpmap 0x0E29 = .ok (.lda 2 ⟨none, true, 9⟩) ∧
  decode defaultOpmap 0x18FF = .ok (.air 0 0xFF) ∧
  decode defaultOpmap 0x3908 = .ok (.sob 1 ⟨none, false, 8⟩) ∧
  decode defaultOpmap 0x6504 = .ok (.src 1 false false 4) ∧
  decode defaultOpmap 0x8897 = .ok (.stx (some .x2) false 23) ∧
  decode defaultOpmap 0xC400 = .ok (.inp 0 0) ∧
  decode defaultOpmap 0xE080 = .ok (.mlt 0 2) ∧
  decode defaultOpmap 0xFC00 = .illegalOpcode 0x3F

/-- Under every legal OPMAP, every instruction is read back from its word, with every operand value
the encoding admits (R91 to R98). -/
def Obligations.DecodeOfEncodeIsTheInstruction : Prop :=
  ∀ (m : Opmap) (i : Instr), m.wf → decode m (encode m i) = .ok i

/-- Encoding a decoded instruction gives the word back with the bits the instruction ignores cleared
(R99, decision D33). -/
def Obligations.EncodeOfDecodeClearsIgnoredBits : Prop :=
  ∀ (m : Opmap) (w : Word) (i : Instr), decode m w = .ok i →
    encode m i = w &&& readMask i.mnemonic

/-- Words that agree on the opcode and on the fields the instruction reads decode alike (R99,
decision D33). -/
def Obligations.IgnoredBitsDoNotMatter : Prop :=
  ∀ (m : Opmap) (w v : Word) (i : Instr), decode m w = .ok i →
    w &&& readMask i.mnemonic = v &&& readMask i.mnemonic → decode m v = .ok i

/-- A word is illegal exactly when its opcode is no mnemonic's number (R100). -/
def Obligations.IllegalExactlyOutsideTheOpmap : Prop :=
  ∀ (m : Opmap) (w : Word) (op : BitVec 6),
    decode m w = .illegalOpcode op ↔ op = opField w ∧ ∀ k : Mnemonic, m.opcode k ≠ opField w

/-- The weights of the fields in both formats (R91, and R92 under decision D5). -/
def Obligations.FieldsHaveTheirWeights : Prop :=
  (∀ (op : BitVec 6) (r ix : BitVec 2) (i : Bool) (addr : BitVec 5),
    (packGeneral op r ix i addr).toNat =
      op.toNat * 1024 + r.toNat * 256 + ix.toNat * 64 + i.toNat * 32 + addr.toNat) ∧
  (∀ (op : BitVec 6) (r : BitVec 2) (al lr : Bool) (count : BitVec 4),
    (packShift op r al lr count).toNat =
      op.toNat * 1024 + r.toNat * 256 + al.toNat * 128 + lr.toNat * 64 + count.toNat)

/-! ## The cycle -/

/-- When the word at PC decodes to `i`, a step is `exec i` on the state the fetch left: IR and MBR
hold the word, MAR the address, PC is one further (modulo 4096), and only the cache changed besides
(R120 to R122; MAR and MBR by decision D20). -/
def Obligations.StepRunsTheDecodedInstruction : Prop :=
  ∀ (s : State) (i : Instr), s.Inv → s.pc.toNat < memWords →
    decode s.cfg.opmap (s.mem.readWord s.pc.toNat) = .ok i →
    ∃ t, step s = exec i t ∧ t.Inv ∧
      t = { s with
        ir := s.mem.readWord s.pc.toNat, pc := s.pc + 1, mar := s.pc,
        mbr := s.mem.readWord s.pc.toNat, cache := t.cache }

/-- A fetch beyond memory raises MemoryFault: IR, PC and the cache unchanged, MAR at PC (R121 and R202
under decisions D12, D20, D21). That the cache is unchanged is the spec's decision D26 (R62, log 11);
that it holds of a halted CPU too is its decision D22 (log 7). -/
def Obligations.FetchBeyondMemoryFaults : Prop :=
  ∀ s : State, memWords ≤ s.pc.toNat →
    step s = .next { s with
      mar := s.pc, mfr := s.mfr ||| bitMask s.cfg.mfrMem, halted := true }

/-- A word whose opcode is not in OPMAP raises IllegalOpcode: its MFR bit and halted are set, IR holds
the word, PC is one further, and nothing else changes but MAR, MBR and the cache, by the fetch (R201
under decisions D12, D20). -/
def Obligations.IllegalOpcodeIsTaken : Prop :=
  ∀ (s : State) (op : BitVec 6), s.Inv → s.pc.toNat < memWords →
    decode s.cfg.opmap (s.mem.readWord s.pc.toNat) = .illegalOpcode op →
    ∃ t, step s = .next t ∧
      t = { s with
        ir := s.mem.readWord s.pc.toNat, pc := s.pc + 1, mar := s.pc,
        mbr := s.mem.readWord s.pc.toNat, mfr := s.mfr ||| bitMask s.cfg.mfrIllop,
        halted := true, cache := t.cache }

/-- "No runtime error type is thrown past the CPU boundary" (R10): no step ends in an error of the
layers below the CPU; and, with the invariants, every step answers a next state unless the word at PC
is in memory and is one of the refused encodings of R101: an access out of range, the fetch's, the
indirect read's or the operand's, is a next state. -/
def Obligations.StepNeverEndsInAFault : Prop :=
  (∀ (s : State) (f : Fault), step s ≠ .fault f) ∧
  (∀ s : State, s.Inv →
    (∀ i, s.pc.toNat < memWords →
      decode s.cfg.opmap (s.mem.readWord s.pc.toNat) = .ok i → i.wf = true) →
    ∃ t, step s = .next t)

/-- Every instruction the spec gives a meaning answers a next state from every state, and the refused
encodings of R101 (decisions D15, D23, D24) are refused, each by its name. -/
def Obligations.WellFormedCompletesIllFormedIsRefused : Prop :=
  (∀ (i : Instr) (s : State), i.wf = true → ∃ t, exec i s = .next t) ∧
  (∀ (ind : Bool) (addr : BitVec 5) (s : State),
    exec (.ldx none ind addr) s = .refused .indexSelectorZero ∧
    exec (.stx none ind addr) s = .refused .indexSelectorZero) ∧
  (∀ (rx ry : Reg) (s : State), (rx = 1 ∨ rx = 3 ∨ ry = 1 ∨ ry = 3) →
    exec (.mlt rx ry) s = .refused .oddRegister ∧ exec (.dvd rx ry) s = .refused .oddRegister) ∧
  (∀ (r : Reg) (d : BitVec 5) (s : State),
    (d ≠ 0 → exec (.inp r d) s = .refused .unknownDevice) ∧
    (d ≠ 1 → exec (.out r d) s = .refused .unknownDevice))

/-- HLT sets the halted flag and nothing else; and a step on any word with opcode 0 does that after
the fetch, PC being one further (R131). -/
def Obligations.HaltSetsTheFlagOnly : Prop :=
  (∀ s : State, exec .hlt s = .next { s with halted := true }) ∧
  (∀ s : State, s.Inv → s.pc.toNat < memWords → opField (s.mem.readWord s.pc.toNat) = 0 →
    ∃ t, step s = .next t ∧
      t = { s with
        ir := s.mem.readWord s.pc.toNat, pc := s.pc + 1, halted := true,
        mar := t.mar, mbr := t.mbr, cache := t.cache })

/-! ## Effective addresses -/

/-- With memory and cache in order, EA() is the address field plus the index, or the word there when
indirect; it changes only MAR, MBR and the cache; and it raises MemoryFault exactly when the
indirect read is out of range. The last clause says what that address is, in numbers: the field
unsigned, plus the whole index register unsigned, if one is selected, the sum not truncated (R124 to
R126 under decisions D19 to D21). -/
def Obligations.EffectiveAddressReadsMemory : Prop :=
  (∀ (a : AddrOperand) (s : State), s.Inv →
    (∀ e, eaOnMemory a s = some e →
      ∃ t, effectiveAddress a s = .done e t ∧ SameButAccess s t ∧ t.Inv) ∧
    (eaOnMemory a s = none →
      ∃ t, effectiveAddress a s = .stopped t ∧ MemoryFaultFrom s t)) ∧
  (∀ (ix : Option XReg) (addr : BitVec 5) (s : State) (n : Nat),
    (ix = none ∧ n = addr.toNat ∨ ∃ k, ix = some k ∧ n = addr.toNat + (s.getX k).toNat) →
    eaOnMemory ⟨ix, false, addr⟩ s = some n ∧
    effectiveAddress ⟨ix, false, addr⟩ s = .done n s ∧
    (n ≤ 2047 → eaOnMemory ⟨ix, true, addr⟩ s = some (s.mem.readWord n).toNat) ∧
    (2047 < n → eaOnMemory ⟨ix, true, addr⟩ s = none))

/-- EA_noindex() is the address field, or the word MemRead gives there when indirect, whatever the
index registers hold (R127). It never faults: R204 lists the indirect read of LDX and STX among those
that can raise MemoryFault, as it does for every indirect read, but the address of theirs is the
5-bit field, at most 31, which is always in memory (an inference from R52 and R91); and with memory
and cache in order the word read is memory's (R68, an inference the spec marks as its own). -/
def Obligations.EffectiveAddressWithoutIndex : Prop :=
  ∀ (ind : Bool) (addr : BitVec 5) (s : State),
    (ind = false → effectiveAddressNoIndex ind addr s = .done addr.toNat s) ∧
    (ind = true → ∃ w t, memRead addr.toNat s = .done w t ∧ SameButAccess s t ∧
      effectiveAddressNoIndex ind addr s = .done w.toNat t ∧
      (s.Inv → w = s.mem.readWord addr.toNat))

/-- An operand access at an address of 2048 or more raises MemoryFault, and the instruction writes no
general register, index register, condition bit, memory word or PC (R128, R202, decisions D19,
D21). -/
def Obligations.OperandOutsideMemoryFaults : Prop :=
  (∀ (r : Reg) (a : AddrOperand) (s : State) (e : Nat), s.Inv → eaOnMemory a s = some e →
    memWords ≤ e → ∀ i ∈ [Instr.ldr r a, .str r a, .amr r a, .smr r a],
      ∃ t, exec i s = .next t ∧ MemoryFaultFrom s t) ∧
  (∀ (k : XReg) (ind : Bool) (addr : BitVec 5) (s : State) (e : Nat), s.Inv →
    eaOnMemory (noIndex ind addr) s = some e → memWords ≤ e →
    ∀ i ∈ [Instr.ldx (some k) ind addr, .stx (some k) ind addr],
      ∃ t, exec i s = .next t ∧ MemoryFaultFrom s t)

/-- An indirect read at an address of 2048 or more raises MemoryFault before the instruction writes
anything, whether or not a jump would be taken (R128, R169, decision D21). -/
def Obligations.IndirectReadOutsideMemoryFaults : Prop :=
  ∀ (r : Reg) (c : Fin 4) (a : AddrOperand) (s : State), s.Inv → eaOnMemory a s = none →
    ∀ i ∈ [Instr.ldr r a, .str r a, .lda r a, .amr r a, .smr r a, .jz r a, .jne r a, .jcc c a,
        .jma a, .jsr a, .sob r a],
      ∃ t, exec i s = .next t ∧ MemoryFaultFrom s t

/-! ## Load and store -/

/-- LDR: the word at EA into R[r], nothing else but MAR, MBR and the cache (R140). -/
def Obligations.LdrLoadsTheWordAtEa : Prop :=
  ∀ (r : Reg) (a : AddrOperand) (s : State) (e : Nat), s.Inv → eaOnMemory a s = some e →
    e < memWords →
    ∃ t, exec (.ldr r a) s = .next t ∧ t.getR r = s.mem.readWord e ∧
      (∀ q, q ≠ r → t.getR q = s.getR q) ∧
      t = { s with r := t.r, mar := t.mar, mbr := t.mbr, cache := t.cache }

/-- STR: R[r] into the word at EA, every byte outside that word as before, no register written but
MAR and MBR (R141). -/
def Obligations.StrStoresTheRegisterAtEa : Prop :=
  ∀ (r : Reg) (a : AddrOperand) (s u : State) (e : Nat), s.Inv →
    effectiveAddress a s = .done e u → e < memWords →
    ∃ t, exec (.str r a) s = .next t ∧ t.mem.readWord e = s.getR r ∧
      (∀ b, b ≠ 2 * e → b ≠ 2 * e + 1 → t.mem.readByte b = s.mem.readByte b) ∧
      t = { s with mem := t.mem, mar := t.mar, mbr := t.mbr, cache := t.cache }

/-- LDA: EA itself, modulo 65536, into R[r], whatever its size (R142 under decision D19). -/
def Obligations.LdaLoadsEaItself : Prop :=
  ∀ (r : Reg) (a : AddrOperand) (s : State) (e : Nat), s.Inv → eaOnMemory a s = some e →
    ∃ t, exec (.lda r a) s = .next t ∧ (t.getR r).toNat = e % 65536 ∧
      (∀ q, q ≠ r → t.getR q = s.getR q) ∧
      t = { s with r := t.r, mar := t.mar, mbr := t.mbr, cache := t.cache }

/-- LDX: the word at the unindexed EA into X[x]; the other index registers and all else unchanged
(R143). -/
def Obligations.LdxLoadsTheIndexRegister : Prop :=
  ∀ (k : XReg) (ind : Bool) (addr : BitVec 5) (s : State) (e : Nat), s.Inv →
    eaOnMemory (noIndex ind addr) s = some e → e < memWords →
    ∃ t, exec (.ldx (some k) ind addr) s = .next t ∧ t.getX k = s.mem.readWord e ∧
      (∀ j, j ≠ k → t.getX j = s.getX j) ∧
      t = { s with x := t.x, mar := t.mar, mbr := t.mbr, cache := t.cache }

/-- STX: X[x] into the word at the unindexed EA, every byte outside that word as before (R144). -/
def Obligations.StxStoresTheIndexRegister : Prop :=
  ∀ (k : XReg) (ind : Bool) (addr : BitVec 5) (s u : State) (e : Nat), s.Inv →
    effectiveAddressNoIndex ind addr s = .done e u → e < memWords →
    ∃ t, exec (.stx (some k) ind addr) s = .next t ∧ t.mem.readWord e = s.getX k ∧
      (∀ b, b ≠ 2 * e → b ≠ 2 * e + 1 → t.mem.readByte b = s.mem.readByte b) ∧
      t = { s with mem := t.mem, mar := t.mar, mbr := t.mbr, cache := t.cache }

/-! ## Arithmetic -/

/-- The add/subtract law, under both values of ARITH: the register gets the 16-bit sum or difference,
OVERFLOW and UNDERFLOW say on which side the exact result left the range, neither is set exactly
when the register reads as the exact result, and no other bit or register changes (R150 under
decisions D13, D14). -/
def Obligations.AddSubLaw : Prop :=
  ∀ (r : Reg) (b : Word) (sub : Bool) (s : State), s.cfg.ccIndex.wf →
    let a := s.getR r
    let t := addSub r b sub s
    let ov := t.getCcBit s.cfg.ccIndex.overflow
    let un := t.getCcBit s.cfg.ccIndex.underflow
    let ws : Int := if sub then a.toInt - b.toInt else a.toInt + b.toInt
    let wu : Int := if sub then (a.toNat : Int) - b.toNat else (a.toNat : Int) + b.toNat
    t.getR r = (if sub then a - b else a + b) ∧
    (s.cfg.arith = .signed →
      (ov = true ↔ ws > 32767) ∧ (un = true ↔ ws < -32768) ∧
      ((ov = false ∧ un = false) ↔ (t.getR r).toInt = ws)) ∧
    (s.cfg.arith = .unsigned →
      (ov = true ↔ wu > 65535) ∧ (un = true ↔ wu < 0) ∧
      ((ov = false ∧ un = false) ↔ ((t.getR r).toNat : Int) = wu)) ∧
    (ov && un) = false ∧
    (∀ j, j ≠ s.cfg.ccIndex.overflow → j ≠ s.cfg.ccIndex.underflow →
      t.getCcBit j = s.getCcBit j) ∧
    (∀ q, q ≠ r → t.getR q = s.getR q) ∧
    t = { s with r := t.r, cc := t.cc }

/-- AMR and SMR apply the add/subtract law to R[r] and the word at EA, register minus memory for SMR;
besides, only MAR, MBR and the cache change (R151, R152). -/
def Obligations.MemoryArithmeticUsesTheWordAtEa : Prop :=
  ∀ (r : Reg) (a : AddrOperand) (s : State) (e : Nat), s.Inv → eaOnMemory a s = some e →
    e < memWords →
    (∃ t, exec (.amr r a) s = .next t ∧
      SameButAccess (addSub r (s.mem.readWord e) false s) t) ∧
    (∃ t, exec (.smr r a) s = .next t ∧
      SameButAccess (addSub r (s.mem.readWord e) true s) t)

/-- AIR and SIR add and subtract the immediate read as a signed 8-bit number, modulo 65536; under
ARITH = signed OVERFLOW and UNDERFLOW compare the exact result with -32768 to 32767; under ARITH =
unsigned they compare with 0 to 65535 the exact result on the register and on the sign-extended
immediate, both read unsigned; other registers and condition bits, memory and PC are unchanged
(R150, R153, R154 under decisions D8, D13, D14). -/
def Obligations.ImmediateArithmeticIsSignExtended : Prop :=
  ∀ (r : Reg) (imm : BitVec 8) (s : State), s.cfg.ccIndex.wf →
    ∀ sub : Bool, ∃ t, exec (if sub then .sir r imm else .air r imm) s = .next t ∧
      ((t.getR r).toNat : Int) =
        (if sub then (s.getR r).toInt - imm.toInt else (s.getR r).toInt + imm.toInt) % 65536 ∧
      (s.cfg.arith = .signed →
        t.getCcBit s.cfg.ccIndex.overflow =
          decide ((if sub then (s.getR r).toInt - imm.toInt
            else (s.getR r).toInt + imm.toInt) > 32767) ∧
        t.getCcBit s.cfg.ccIndex.underflow =
          decide ((if sub then (s.getR r).toInt - imm.toInt
            else (s.getR r).toInt + imm.toInt) < -32768)) ∧
      (s.cfg.arith = .unsigned →
        t.getCcBit s.cfg.ccIndex.overflow =
          decide ((if sub then ((s.getR r).toNat : Int) - imm.toInt % 65536
            else ((s.getR r).toNat : Int) + imm.toInt % 65536) > 65535) ∧
        t.getCcBit s.cfg.ccIndex.underflow =
          decide ((if sub then ((s.getR r).toNat : Int) - imm.toInt % 65536
            else ((s.getR r).toNat : Int) + imm.toInt % 65536) < 0)) ∧
      (∀ j, j ≠ s.cfg.ccIndex.overflow → j ≠ s.cfg.ccIndex.underflow →
        t.getCcBit j = s.getCcBit j) ∧
      (∀ q, q ≠ r → t.getR q = s.getR q) ∧
      t = { s with r := t.r, cc := t.cc }

/-! ## Register to register -/

/-- MLT: the register pair (rx, rx + 1), read as one signed 32-bit number, is the product of the two
operands read signed before the instruction; no flag is written (R161 under decision D15). -/
def Obligations.MltGivesTheSignedProduct : Prop :=
  ∀ (rx ry : Reg) (s : State), (rx = 0 ∨ rx = 2) → (ry = 0 ∨ ry = 2) →
    ∃ t, exec (.mlt rx ry) s = .next t ∧
      (t.getR rx ++ t.getR (rx + 1)).toInt = (s.getR rx).toInt * (s.getR ry).toInt ∧
      (∀ q, q ≠ rx → q ≠ rx + 1 → t.getR q = s.getR q) ∧
      t = { s with r := t.r }

/-- DVD by a non-zero divisor: quotient toward zero in rx, remainder with the dividend's sign in
rx + 1, both truncated to 16 bits; DIVZERO is cleared, the other condition bits and all else
unchanged (R162 under decisions D14 to D16). -/
def Obligations.DvdGivesQuotientAndRemainder : Prop :=
  ∀ (rx ry : Reg) (s : State), (rx = 0 ∨ rx = 2) → (ry = 0 ∨ ry = 2) → s.getR ry ≠ 0 →
    ∃ (t : State) (q m : Int), exec (.dvd rx ry) s = .next t ∧
      (s.getR rx).toInt = q * (s.getR ry).toInt + m ∧
      |m| < |(s.getR ry).toInt| ∧ 0 ≤ m * (s.getR rx).toInt ∧
      t.getR rx = BitVec.ofInt 16 q ∧ t.getR (rx + 1) = BitVec.ofInt 16 m ∧
      t.getCcBit s.cfg.ccIndex.divzero = false ∧
      (∀ j, j ≠ s.cfg.ccIndex.divzero → t.getCcBit j = s.getCcBit j) ∧
      (∀ p, p ≠ rx → p ≠ rx + 1 → t.getR p = s.getR p) ∧
      t = { s with r := t.r, cc := t.cc }

/-- DVD by zero: DIVZERO is set and nothing else changes, except that halted is set too under
DZ_POLICY = halt (R162, R203 under decisions D11, D17). -/
def Obligations.DvdByZeroSetsDivzero : Prop :=
  ∀ (rx ry : Reg) (s : State), (rx = 0 ∨ rx = 2) → (ry = 0 ∨ ry = 2) → s.getR ry = 0 →
    ∃ t, exec (.dvd rx ry) s = .next t ∧
      t.getCcBit s.cfg.ccIndex.divzero = true ∧
      (∀ j, j ≠ s.cfg.ccIndex.divzero → t.getCcBit j = s.getCcBit j) ∧
      t = { s with cc := t.cc, halted := s.halted || (s.cfg.dzPolicy == .halt) }

/-- TRR: EQUALORNOT says whether the two registers hold the same pattern; the other condition bits,
every register and all else unchanged (R163 under decision D14). -/
def Obligations.TrrSetsEqualornot : Prop :=
  ∀ (rx ry : Reg) (s : State),
    ∃ t, exec (.trr rx ry) s = .next t ∧
      (t.getCcBit s.cfg.ccIndex.equalornot = true ↔ (s.getR rx).toNat = (s.getR ry).toNat) ∧
      (∀ j, j ≠ s.cfg.ccIndex.equalornot → t.getCcBit j = s.getCcBit j) ∧
      t = { s with cc := t.cc }

/-- AND, ORR and NOT act bit by bit on R[rx], reading both registers before the write, and change
nothing else; with rx = ry, AND and ORR change nothing at all, and NOT twice changes nothing
(R164, R165, R166). -/
def Obligations.BitwiseOperationsActOnEveryBit : Prop :=
  ∀ (rx ry : Reg) (s : State),
    (∃ t, exec (.and rx ry) s = .next t ∧
      (∀ j : Fin 16, (t.getR rx).getLsbD j = ((s.getR rx).getLsbD j && (s.getR ry).getLsbD j)) ∧
      (∀ q, q ≠ rx → t.getR q = s.getR q) ∧ t = { s with r := t.r } ∧ (rx = ry → t = s)) ∧
    (∃ t, exec (.orr rx ry) s = .next t ∧
      (∀ j : Fin 16, (t.getR rx).getLsbD j = ((s.getR rx).getLsbD j || (s.getR ry).getLsbD j)) ∧
      (∀ q, q ≠ rx → t.getR q = s.getR q) ∧ t = { s with r := t.r } ∧ (rx = ry → t = s)) ∧
    (∃ t, exec (.not rx) s = .next t ∧
      (∀ j : Fin 16, (t.getR rx).getLsbD j = !(s.getR rx).getLsbD j) ∧
      (∀ q, q ≠ rx → t.getR q = s.getR q) ∧ t = { s with r := t.r } ∧
      exec (.not rx) t = .next s)

/-! ## Transfer of control -/

/-- JZ and JNE: PC gets EA modulo 4096 when R[r] is zero, respectively not zero, else it stays; only
MAR, MBR and the cache change besides (R169 to R171). -/
def Obligations.JzAndJneTestTheRegister : Prop :=
  ∀ (r : Reg) (a : AddrOperand) (s : State) (e : Nat), s.Inv → eaOnMemory a s = some e →
    (∃ t, exec (.jz r a) s = .next t ∧
      t.pc.toNat = (if (s.getR r).toNat = 0 then e % 4096 else s.pc.toNat) ∧
      t = { s with pc := t.pc, mar := t.mar, mbr := t.mbr, cache := t.cache }) ∧
    (∃ t, exec (.jne r a) s = .next t ∧
      t.pc.toNat = (if (s.getR r).toNat = 0 then s.pc.toNat else e % 4096) ∧
      t = { s with pc := t.pc, mar := t.mar, mbr := t.mbr, cache := t.cache })

/-- JCC: PC gets EA modulo 4096 when cc[i] is 1, the bit of weight 2^i of CC; CC is unchanged
(R172). -/
def Obligations.JccTestsTheConditionBit : Prop :=
  ∀ (i : Fin 4) (a : AddrOperand) (s : State) (e : Nat), s.Inv → eaOnMemory a s = some e →
    ∃ t, exec (.jcc i a) s = .next t ∧
      t.pc.toNat = (if s.cc.toNat / 2 ^ i.val % 2 = 1 then e % 4096 else s.pc.toNat) ∧
      t = { s with pc := t.pc, mar := t.mar, mbr := t.mbr, cache := t.cache }

/-- JMA: PC gets EA modulo 4096, unchecked against the size of memory (R169, R173). -/
def Obligations.JmaJumpsToEa : Prop :=
  ∀ (a : AddrOperand) (s : State) (e : Nat), s.Inv → eaOnMemory a s = some e →
    ∃ t, exec (.jma a) s = .next t ∧ t.pc.toNat = e % 4096 ∧
      t = { s with pc := t.pc, mar := t.mar, mbr := t.mbr, cache := t.cache }

/-- JSR: the linkage register gets the already-advanced PC, PC gets EA modulo 4096 (R174; which
register is LINK is decision D10). -/
def Obligations.JsrSavesPcAndJumps : Prop :=
  ∀ (a : AddrOperand) (s : State) (e : Nat), s.Inv → eaOnMemory a s = some e →
    ∃ t, exec (.jsr a) s = .next t ∧ (t.getR s.cfg.link).toNat = s.pc.toNat ∧
      t.pc.toNat = e % 4096 ∧ (∀ q, q ≠ s.cfg.link → t.getR q = s.getR q) ∧
      t = { s with r := t.r, pc := t.pc, mar := t.mar, mbr := t.mbr, cache := t.cache }

/-- RFS: R[0] gets the 5-bit immediate, PC the low 12 bits of the linkage register as it is after
that write, nothing else changes (R175 under decisions D9, D10). The case LINK = 0, where PC gets the
immediate itself, is the model's reading of the order of R175's two lines (DEDUCED, log 14). -/
def Obligations.RfsReturnsThroughTheLink : Prop :=
  ∀ (imm : BitVec 5) (s : State),
    ∃ t, exec (.rfs imm) s = .next t ∧ (t.getR 0).toNat = imm.toNat ∧
      t.pc.toNat =
        (if s.cfg.link = 0 then imm.toNat else (s.getR s.cfg.link).toNat % 4096) ∧
      (∀ q, q ≠ 0 → t.getR q = s.getR q) ∧
      t = { s with r := t.r, pc := t.pc }

/-- SOB: R[r] is decremented modulo 65536, and the jump is taken exactly when R[r] was 2 to 32768
before, that is when the result read signed is positive (R176 under decision D18). -/
def Obligations.SobDecrementsAndLoops : Prop :=
  ∀ (r : Reg) (a : AddrOperand) (s : State) (e : Nat), s.Inv → eaOnMemory a s = some e →
    ∃ t, exec (.sob r a) s = .next t ∧
      (t.getR r).toNat = ((s.getR r).toNat + 65535) % 65536 ∧
      t.pc.toNat =
        (if 2 ≤ (s.getR r).toNat ∧ (s.getR r).toNat ≤ 32768 then e % 4096 else s.pc.toNat) ∧
      (∀ q, q ≠ r → t.getR q = s.getR q) ∧
      t = { s with r := t.r, pc := t.pc, mar := t.mar, mbr := t.mbr, cache := t.cache }

/-! ## Shift and rotate -/

/-- SRC: the four shifts as arithmetic on the register's value; the arithmetic left shift keeps bit 15
and shifts the low 15 bits (R181 under decisions D6, D7). -/
def Obligations.SrcShiftsTheValue : Prop :=
  ∀ (r : Reg) (al lr : Bool) (count : BitVec 4) (s : State),
    ∃ t, exec (.src r al lr count) s = .next t ∧
      (al = s.cfg.alLogical → lr = s.cfg.lrLeft →
        (t.getR r).toNat = (s.getR r).toNat * 2 ^ count.toNat % 65536) ∧
      (al = s.cfg.alLogical → lr ≠ s.cfg.lrLeft →
        (t.getR r).toNat = (s.getR r).toNat / 2 ^ count.toNat) ∧
      (al ≠ s.cfg.alLogical → lr ≠ s.cfg.lrLeft →
        (t.getR r).toInt = (s.getR r).toInt / 2 ^ count.toNat) ∧
      (al ≠ s.cfg.alLogical → lr = s.cfg.lrLeft →
        (t.getR r).toNat = (s.getR r).toNat / 32768 * 32768 +
          (s.getR r).toNat % 32768 * 2 ^ count.toNat % 32768) ∧
      (∀ q, q ≠ r → t.getR q = s.getR q) ∧ t = { s with r := t.r }

/-- RRC: the two rotates, whatever the A/L flag; no bit is lost, and no flag is written (R182). -/
def Obligations.RrcRotatesEveryBit : Prop :=
  ∀ (r : Reg) (al lr : Bool) (count : BitVec 4) (s : State),
    ∃ t, exec (.rrc r al lr count) s = .next t ∧
      (lr = s.cfg.lrLeft →
        (t.getR r).toNat = (s.getR r).toNat * 2 ^ count.toNat % 65536 |||
          (s.getR r).toNat / 2 ^ (16 - count.toNat)) ∧
      (lr ≠ s.cfg.lrLeft →
        (t.getR r).toNat = (s.getR r).toNat / 2 ^ count.toNat |||
          (s.getR r).toNat * 2 ^ (16 - count.toNat) % 65536) ∧
      (∀ q, q ≠ r → t.getR q = s.getR q) ∧ t = { s with r := t.r }

/-! ## Input and output -/

/-- IN from device 0: an available value is taken from the supplier and stored modulo 65536; with none
available (an answer `none`, or no answer listed: the model's choice, log 1) PC goes back by one and
nothing else changes; and a step that so retries leaves PC at the IN (R191 under decision D23). -/
def Obligations.InDeliversOrRetries : Prop :=
  (∀ (r : Reg) (s : State) (n : Int) (rest : List (Option Int)),
    s.consoleIn = some n :: rest →
    ∃ t, exec (.inp r 0) s = .next t ∧ ((t.getR r).toNat : Int) = n % 65536 ∧
      (∀ q, q ≠ r → t.getR q = s.getR q) ∧ t = { s with r := t.r, consoleIn := rest }) ∧
  (∀ (r : Reg) (s : State), s.consoleIn.head? = some none ∨ s.consoleIn = [] →
    exec (.inp r 0) s = .next { s with pc := s.pc - 1, consoleIn := s.consoleIn.tail }) ∧
  (∀ (r : Reg) (s : State), s.Inv → s.pc.toNat < memWords →
    decode s.cfg.opmap (s.mem.readWord s.pc.toNat) = .ok (.inp r 0) →
    s.consoleIn.head? = some none ∨ s.consoleIn = [] →
    ∃ t, step s = .next t ∧
      t = { s with
        ir := s.mem.readWord s.pc.toNat, consoleIn := s.consoleIn.tail,
        mar := t.mar, mbr := t.mbr, cache := t.cache })

/-- OUT to device 1: the 16-bit pattern of R[r] is handed over, after all words before it, and nothing
else changes; two OUTs hand over two words in program order (R192, R193 under decision D23). -/
def Obligations.OutHandsOverTheRegister : Prop :=
  ∀ (r q : Reg) (s : State),
    ∃ t u, exec (.out r 1) s = .next t ∧ exec (.out q 1) t = .next u ∧
      t = { s with consoleOut := s.consoleOut ++ [s.getR r] } ∧
      u = { s with consoleOut := s.consoleOut ++ [s.getR r, s.getR q] }

/-! ## Frames -/

/-- No instruction changes a general register but the ones R34 lists for it (`destRegs`). -/
def Obligations.GeneralRegistersFrame : Prop :=
  ∀ (i : Instr) (s t : State) (q : Reg), exec i s = .next t → q ∉ destRegs s.cfg i →
    t.getR q = s.getR q

/-- Only LDX writes an index register, and only the one it names (R21). -/
def Obligations.IndexRegistersFrame : Prop :=
  ∀ (i : Instr) (s t : State) (k : XReg), exec i s = .next t →
    (∀ ind addr, i ≠ .ldx (some k) ind addr) → t.getX k = s.getX k

/-- No instruction changes a condition bit but the ones R25 lists for it (`destCc`). -/
def Obligations.ConditionCodeFrame : Prop :=
  ∀ (i : Instr) (s t : State) (j : Fin 4), exec i s = .next t → j ∉ destCc s.cfg i →
    t.getCcBit j = s.getCcBit j

/-- During execute, MFR changes only by a MemoryFault of an instruction that computes an address, and
halted only by that, by HLT, and by a divide by zero under DZ_POLICY = halt (R26, R27, R204). What the
rest of a step does to them, a fetch fault and an illegal opcode, is `FetchBeyondMemoryFaults` and
`IllegalOpcodeIsTaken`. -/
def Obligations.FaultAndHaltFrame : Prop :=
  ∀ (i : Instr) (s t : State), exec i s = .next t →
    (usesAddress i = true ∧ MemoryFaultFrom s t) ∨
    (t.mfr = s.mfr ∧
      (t.halted = s.halted ∨ i = .hlt ∨
        ∃ rx ry, i = .dvd rx ry ∧ s.getR ry = 0 ∧ s.cfg.dzPolicy = .halt))

/-- Every byte of memory is unchanged by every instruction but STR and STX (R34). -/
def Obligations.MemoryFrameOfNonStores : Prop :=
  ∀ (i : Instr) (s t : State) (b : Nat), exec i s = .next t → storesToMemory i = false →
    t.mem.readByte b = s.mem.readByte b

/-- STR and STX change no byte outside the word at the address they compute, and none at all when
they end in a fault (R141, R144, R128). -/
def Obligations.MemoryFrameOfStores : Prop :=
  (∀ (r : Reg) (a : AddrOperand) (s t : State) (b : Nat), s.mem.wf →
    exec (.str r a) s = .next t →
    (∀ e u, effectiveAddress a s = .done e u → e < memWords → b ≠ 2 * e ∧ b ≠ 2 * e + 1) →
    t.mem.readByte b = s.mem.readByte b) ∧
  (∀ (k : XReg) (ind : Bool) (addr : BitVec 5) (s t : State) (b : Nat), s.mem.wf →
    exec (.stx (some k) ind addr) s = .next t →
    (∀ e u, effectiveAddressNoIndex ind addr s = .done e u → e < memWords →
      b ≠ 2 * e ∧ b ≠ 2 * e + 1) →
    t.mem.readByte b = s.mem.readByte b)

/-- Only the transfer family and IN write PC during execute (R22). -/
def Obligations.ProgramCounterFrame : Prop :=
  ∀ (i : Instr) (s t : State), exec i s = .next t → mayWritePc i = false → t.pc = s.pc

/-- No instruction writes IR or the parameters; only IN takes from the console and only OUT hands to
it (R23, R34, R193; that the parameters never change is the model's, log 4). -/
def Obligations.InstructionRegisterAndConsoleFrame : Prop :=
  ∀ (i : Instr) (s t : State), exec i s = .next t →
    t.ir = s.ir ∧ t.cfg = s.cfg ∧
    (t.consoleIn = s.consoleIn ∨ ∃ r, i = .inp r 0 ∧ t.consoleIn = s.consoleIn.tail) ∧
    (t.consoleOut = s.consoleOut ∨ ∃ r, i = .out r 1 ∧ t.consoleOut = s.consoleOut ++ [s.getR r])

/-- MAR, MBR and the cache are changed during execute only by the instructions that compute an
address (R34, R71, R204; decision D20). -/
def Obligations.AccessRegistersFrame : Prop :=
  ∀ (i : Instr) (s t : State), exec i s = .next t → usesAddress i = false →
    t.mar = s.mar ∧ t.mbr = s.mbr ∧ t.cache = s.cache

/-! ## The whole machine -/

/-- Every step keeps the canonical form of memory, R30 (a), (b), (c) and R30 (e). -/
def Obligations.StepKeepsTheInvariants : Prop :=
  ∀ s t : State, s.Inv → step s = .next t → t.Inv

/-- Power-on: every register, CC, MFR, halted and every memory word 0, the cache empty with its
counters 0; and the invariants hold (R38, R39, decision D27). -/
def Obligations.ResetIsZeroAndMeetsTheInvariants : Prop :=
  State.reset.Inv ∧ State.reset.cfg.wf ∧
  (∀ q, State.reset.getR q = 0) ∧ (∀ k, State.reset.getX k = 0) ∧
  State.reset.pc = 0 ∧ State.reset.ir = 0 ∧ State.reset.mar = 0 ∧ State.reset.mbr = 0 ∧
  State.reset.cc = 0 ∧ State.reset.mfr = 0 ∧ State.reset.halted = false ∧
  (∀ a, State.reset.mem.readWord a = 0) ∧
  (∀ i : Fin 16, State.reset.cache.lines[i] = none) ∧
  State.reset.cache.hits = 0 ∧ State.reset.cache.misses = 0 ∧ State.reset.cache.seq = 0

/-- The cache is invisible to the program: two states that differ only in what is resident step to
states that differ only in what is resident, or are refused alike (R31). -/
def Obligations.CacheIsInvisibleToTheProgram : Prop :=
  ∀ s t : State, s.Inv → t.Inv → SameButCache s t →
    (∃ s' t', step s = .next s' ∧ step t = .next t' ∧ SameButCache s' t') ∨
    (∃ q, step s = .refused q ∧ step t = .refused q)

/-- A line, once valid, stays valid through every step (R30 (d)). -/
def Obligations.ValidLinesStayValid : Prop :=
  ∀ (s t : State) (i : Fin 16), step s = .next t →
    (s.cache.lines[i]).isSome = true → (t.cache.lines[i]).isSome = true

/-- A step counts at most three accesses as a hit or a miss, at least the fetch when PC is inside
memory, and none when it is not (R71, R129; that failing accesses count nothing is decision D26,
log 11). -/
def Obligations.StepCountsAtMostThreeAccesses : Prop :=
  ∀ s t : State, step s = .next t →
    s.cache.accesses ≤ t.cache.accesses ∧ t.cache.accesses ≤ s.cache.accesses + 3 ∧
    (s.pc.toNat < memWords → s.cache.accesses + 1 ≤ t.cache.accesses) ∧
    (memWords ≤ s.pc.toNat → t.cache.accesses = s.cache.accesses)

/-- A step never clears an MFR bit and never clears halted, and changes no bit of MFR but the two
faults' (R26, R27 under decision D12). -/
def Obligations.StepNeverClearsAFault : Prop :=
  ∀ s t : State, step s = .next t →
    (∀ j : Fin 4, s.mfr.getLsbD j = true → t.mfr.getLsbD j = true) ∧
    (∀ j : Fin 4, j ≠ s.cfg.mfrIllop → j ≠ s.cfg.mfrMem → t.mfr.getLsbD j = s.mfr.getLsbD j) ∧
    (s.halted = true → t.halted = true) ∧
    (t.mfr ≠ s.mfr → t.halted = true)

/-! ## Memory controller and cache -/

/-- The memory controller, at any integer address: in 0 to 2047 a read returns the word and a write
changes that word alone; elsewhere both fail with AddressOutOfRange, which the CPU's accesses make a
MemoryFault, the address being the whole address and not its 12 low bits (R52). -/
def Obligations.MemoryControllerReadsWhatWasWritten : Prop :=
  (∀ (m : Memory) (a : Int) (v : Word), m.wf →
    (0 ≤ a → a ≤ 2047 → memCtlReadAt a m = .ok (m.readWord a.toNat) ∧
      ∃ m', memCtlWriteAt a v m = .ok m' ∧ m'.wf ∧ memCtlReadAt a m' = .ok v ∧
        ∀ b, b ≠ a → memCtlReadAt b m' = memCtlReadAt b m) ∧
    (a < 0 ∨ 2047 < a → memCtlReadAt a m = .error .addressOutOfRange ∧
      memCtlWriteAt a v m = .error .addressOutOfRange)) ∧
  (∀ (s : State) (a : Nat) (v : Word), 2047 < a →
    (∃ t, memRead a s = .stopped t ∧ MemoryFaultFrom s t) ∧
    (∃ t, memWrite a v s = .stopped t ∧ MemoryFaultFrom s t))

/-- Transparency: with the invariants and an address in range, MemRead gives the memory word, MemWrite
changes the memory word alone, both keep the invariants, set MAR to the address modulo 4096 and MBR to
the word, and change nothing else but the cache (R66 to R68; MAR and MBR by decision D20). An address
out of range changes no line and no counter (R62, decision D26, log 11), nor MBR. -/
def Obligations.CacheIsTransparent : Prop :=
  (∀ (s : State) (a : Nat) (v : Word), s.Inv → a < memWords →
    (∃ t, memRead a s = .done (s.mem.readWord a) t ∧ t.Inv ∧ t.cache.resident a ∧
      t = { s with mar := BitVec.ofNat 12 a, mbr := s.mem.readWord a, cache := t.cache }) ∧
    (∃ t, memWrite a v s = .done () t ∧ t.Inv ∧ t.cache.resident a ∧
      (∀ b, t.mem.readWord b = if b = a then v else s.mem.readWord b) ∧
      t = { s with mar := BitVec.ofNat 12 a, mbr := v, mem := t.mem, cache := t.cache })) ∧
  (∀ (s : State) (a : Nat) (v : Word), memWords ≤ a →
    (∃ t, memRead a s = .stopped t ∧ t.cache = s.cache ∧ t.mbr = s.mbr ∧
      t.mar.toNat = a % 4096) ∧
    (∃ t, memWrite a v s = .stopped t ∧ t.cache = s.cache ∧ t.mbr = s.mbr ∧
      t.mar.toNat = a % 4096))

/-- FIFO: (a) a second read of an address right after the first is a hit, which adds one to the hits
and nothing to the misses; (b) reading distinct addresses from an empty cache leaves exactly the 16
most recently inserted ones resident, so that of 17 the first is evicted (R74). -/
def Obligations.CacheIsFifo : Prop :=
  (∀ (m : Memory) (c c' : Cache) (a : Nat) (v : Word), c.wf → cacheRead a m c = .ok (v, c') →
    cacheRead a m c' = .ok (v, { c' with hits := c'.hits + 1 })) ∧
  (∀ (m : Memory) (as : List Nat), as.Nodup → (∀ a ∈ as, a < memWords) →
    ∀ a, (readAll m as Cache.empty).resident a ↔ a ∈ as.drop (as.length - 16))

/-! ## The host -/

/-- After the boot order of R243 (decision D29) the invariants hold, PC is the entry modulo 4096, every
other register, CC, MFR and halted are 0, the cache is empty with its counters 0, the console and the
parameters are as they were, and every address holds the last in-range value loaded there, modulo
65536, else what it held. The CPU's reset alone zeroes the registers, CC, MFR and halted and leaves
memory, cache, console and parameters (R38, decision D27); the cache clear alone empties the cache and
leaves all else (R40). -/
def Obligations.BootLoadsAndEstablishesTheInvariants : Prop :=
  (∀ (pairs : List (Int × Int)) (entry : Int) (s : State), s.mem.wf →
    let t := boot pairs entry s
    t.Inv ∧ (t.pc.toNat : Int) = entry % 4096 ∧
    (∀ q, t.getR q = 0) ∧ (∀ k, t.getX k = 0) ∧ (∀ i : Fin 16, t.cache.lines[i] = none) ∧
    t = { s with
      r := t.r, x := t.x, pc := t.pc, ir := 0, mar := 0, mbr := 0, cc := 0, mfr := 0,
      halted := false, mem := t.mem,
      cache := { lines := t.cache.lines, hits := 0, misses := 0, seq := 0 } } ∧
    ∀ a : Nat, a < memWords →
      t.mem.readWord a =
        match pairs.reverse.find? (fun p => p.1 == (a : Int)) with
        | some p => BitVec.ofInt 16 p.2
        | none => s.mem.readWord a) ∧
  (∀ s : State,
    let t := resetCpu s
    (∀ q, t.getR q = 0) ∧ (∀ k, t.getX k = 0) ∧
    t = { s with
      r := t.r, x := t.x, pc := 0, ir := 0, mar := 0, mbr := 0, cc := 0, mfr := 0,
      halted := false }) ∧
  (∀ s : State,
    let t := cacheClear s
    (∀ i : Fin 16, t.cache.lines[i] = none) ∧
    t = { s with cache := { lines := t.cache.lines, hits := 0, misses := 0, seq := 0 } })

/-- Host accessors: setting a named register to z and getting it gives z modulo 2 to its width, leaves
every other named register, and has no other effect: halted, memory, cache, console and parameters are
as they were (R8, R221). -/
def Obligations.HostSetsTruncate : Prop :=
  ∀ (n : NamedReg) (z : Int) (s : State), s.cfg.ccPack.toList.Nodup →
    ((hostGet n (hostSet n z s) : Nat) : Int) = z % 2 ^ n.width ∧
    (∀ k, k ≠ n → hostGet k (hostSet n z s) = hostGet k s) ∧
    let t := hostSet n z s
    t = { s with
      r := t.r, x := t.x, pc := t.pc, ir := t.ir, mar := t.mar, mbr := t.mbr, cc := t.cc,
      mfr := t.mfr }

/-- A run that has halted is finished: any larger limit gives the same end, and a run from a halted
state does nothing (R123 under decision D22). -/
def Obligations.RunStopsAtHalted : Prop :=
  (∀ (f : State → State) (n : Nat) (s : State), s.halted = true → run f n s = .next s) ∧
  (∀ (f : State → State) (n k : Nat) (s t : State), run f n s = .next t → t.halted = true →
    run f (n + k) s = .next t)
end

