-- ==== Sys2Proof/Laws/State.lean ====
section
/-! SUPPORT. One lemma per field per update of State, and what reading a register after a write
gives, so that no proof unfolds a record update. -/

namespace Sys2Proof.Machine

/-! ## setR -/

@[simp] theorem State.setR_r (s : State) (i : Reg) (v : Word) : (s.setR i v).r = s.r.set i v := rfl
@[simp] theorem State.setR_x (s : State) (i : Reg) (v : Word) : (s.setR i v).x = s.x := rfl
@[simp] theorem State.setR_pc (s : State) (i : Reg) (v : Word) : (s.setR i v).pc = s.pc := rfl
@[simp] theorem State.setR_ir (s : State) (i : Reg) (v : Word) : (s.setR i v).ir = s.ir := rfl
@[simp] theorem State.setR_mar (s : State) (i : Reg) (v : Word) : (s.setR i v).mar = s.mar := rfl
@[simp] theorem State.setR_mbr (s : State) (i : Reg) (v : Word) : (s.setR i v).mbr = s.mbr := rfl
@[simp] theorem State.setR_cc (s : State) (i : Reg) (v : Word) : (s.setR i v).cc = s.cc := rfl
@[simp] theorem State.setR_mfr (s : State) (i : Reg) (v : Word) : (s.setR i v).mfr = s.mfr := rfl
@[simp] theorem State.setR_halted (s : State) (i : Reg) (v : Word) : (s.setR i v).halted = s.halted := rfl
@[simp] theorem State.setR_mem (s : State) (i : Reg) (v : Word) : (s.setR i v).mem = s.mem := rfl
@[simp] theorem State.setR_cache (s : State) (i : Reg) (v : Word) : (s.setR i v).cache = s.cache := rfl
@[simp] theorem State.setR_consoleIn (s : State) (i : Reg) (v : Word) : (s.setR i v).consoleIn = s.consoleIn := rfl
@[simp] theorem State.setR_consoleOut (s : State) (i : Reg) (v : Word) : (s.setR i v).consoleOut = s.consoleOut := rfl
@[simp] theorem State.setR_cfg (s : State) (i : Reg) (v : Word) : (s.setR i v).cfg = s.cfg := rfl
@[simp] theorem State.getX_setR (s : State) (i : Reg) (v : Word) (j : XReg) : (s.setR i v).getX j = s.getX j := rfl

/-! ## setX -/

@[simp] theorem State.setX_r (s : State) (i : XReg) (v : Word) : (s.setX i v).r = s.r := rfl
@[simp] theorem State.setX_x (s : State) (i : XReg) (v : Word) : (s.setX i v).x = s.x.set i v := rfl
@[simp] theorem State.setX_pc (s : State) (i : XReg) (v : Word) : (s.setX i v).pc = s.pc := rfl
@[simp] theorem State.setX_ir (s : State) (i : XReg) (v : Word) : (s.setX i v).ir = s.ir := rfl
@[simp] theorem State.setX_mar (s : State) (i : XReg) (v : Word) : (s.setX i v).mar = s.mar := rfl
@[simp] theorem State.setX_mbr (s : State) (i : XReg) (v : Word) : (s.setX i v).mbr = s.mbr := rfl
@[simp] theorem State.setX_cc (s : State) (i : XReg) (v : Word) : (s.setX i v).cc = s.cc := rfl
@[simp] theorem State.setX_mfr (s : State) (i : XReg) (v : Word) : (s.setX i v).mfr = s.mfr := rfl
@[simp] theorem State.setX_halted (s : State) (i : XReg) (v : Word) : (s.setX i v).halted = s.halted := rfl
@[simp] theorem State.setX_mem (s : State) (i : XReg) (v : Word) : (s.setX i v).mem = s.mem := rfl
@[simp] theorem State.setX_cache (s : State) (i : XReg) (v : Word) : (s.setX i v).cache = s.cache := rfl
@[simp] theorem State.setX_consoleIn (s : State) (i : XReg) (v : Word) : (s.setX i v).consoleIn = s.consoleIn := rfl
@[simp] theorem State.setX_consoleOut (s : State) (i : XReg) (v : Word) : (s.setX i v).consoleOut = s.consoleOut := rfl
@[simp] theorem State.setX_cfg (s : State) (i : XReg) (v : Word) : (s.setX i v).cfg = s.cfg := rfl
@[simp] theorem State.getR_setX (s : State) (i : XReg) (v : Word) (j : Reg) : (s.setX i v).getR j = s.getR j := rfl

/-! ## setPc -/

@[simp] theorem State.setPc_r (s : State) (v : BitVec 12) : (s.setPc v).r = s.r := rfl
@[simp] theorem State.setPc_x (s : State) (v : BitVec 12) : (s.setPc v).x = s.x := rfl
@[simp] theorem State.setPc_pc (s : State) (v : BitVec 12) : (s.setPc v).pc = v := rfl
@[simp] theorem State.setPc_ir (s : State) (v : BitVec 12) : (s.setPc v).ir = s.ir := rfl
@[simp] theorem State.setPc_mar (s : State) (v : BitVec 12) : (s.setPc v).mar = s.mar := rfl
@[simp] theorem State.setPc_mbr (s : State) (v : BitVec 12) : (s.setPc v).mbr = s.mbr := rfl
@[simp] theorem State.setPc_cc (s : State) (v : BitVec 12) : (s.setPc v).cc = s.cc := rfl
@[simp] theorem State.setPc_mfr (s : State) (v : BitVec 12) : (s.setPc v).mfr = s.mfr := rfl
@[simp] theorem State.setPc_halted (s : State) (v : BitVec 12) : (s.setPc v).halted = s.halted := rfl
@[simp] theorem State.setPc_mem (s : State) (v : BitVec 12) : (s.setPc v).mem = s.mem := rfl
@[simp] theorem State.setPc_cache (s : State) (v : BitVec 12) : (s.setPc v).cache = s.cache := rfl
@[simp] theorem State.setPc_consoleIn (s : State) (v : BitVec 12) : (s.setPc v).consoleIn = s.consoleIn := rfl
@[simp] theorem State.setPc_consoleOut (s : State) (v : BitVec 12) : (s.setPc v).consoleOut = s.consoleOut := rfl
@[simp] theorem State.setPc_cfg (s : State) (v : BitVec 12) : (s.setPc v).cfg = s.cfg := rfl
@[simp] theorem State.getR_setPc (s : State) (v : BitVec 12) (j : Reg) : (s.setPc v).getR j = s.getR j := rfl
@[simp] theorem State.getX_setPc (s : State) (v : BitVec 12) (j : XReg) : (s.setPc v).getX j = s.getX j := rfl

/-! ## setIr -/

@[simp] theorem State.setIr_r (s : State) (v : Word) : (s.setIr v).r = s.r := rfl
@[simp] theorem State.setIr_x (s : State) (v : Word) : (s.setIr v).x = s.x := rfl
@[simp] theorem State.setIr_pc (s : State) (v : Word) : (s.setIr v).pc = s.pc := rfl
@[simp] theorem State.setIr_ir (s : State) (v : Word) : (s.setIr v).ir = v := rfl
@[simp] theorem State.setIr_mar (s : State) (v : Word) : (s.setIr v).mar = s.mar := rfl
@[simp] theorem State.setIr_mbr (s : State) (v : Word) : (s.setIr v).mbr = s.mbr := rfl
@[simp] theorem State.setIr_cc (s : State) (v : Word) : (s.setIr v).cc = s.cc := rfl
@[simp] theorem State.setIr_mfr (s : State) (v : Word) : (s.setIr v).mfr = s.mfr := rfl
@[simp] theorem State.setIr_halted (s : State) (v : Word) : (s.setIr v).halted = s.halted := rfl
@[simp] theorem State.setIr_mem (s : State) (v : Word) : (s.setIr v).mem = s.mem := rfl
@[simp] theorem State.setIr_cache (s : State) (v : Word) : (s.setIr v).cache = s.cache := rfl
@[simp] theorem State.setIr_consoleIn (s : State) (v : Word) : (s.setIr v).consoleIn = s.consoleIn := rfl
@[simp] theorem State.setIr_consoleOut (s : State) (v : Word) : (s.setIr v).consoleOut = s.consoleOut := rfl
@[simp] theorem State.setIr_cfg (s : State) (v : Word) : (s.setIr v).cfg = s.cfg := rfl
@[simp] theorem State.getR_setIr (s : State) (v : Word) (j : Reg) : (s.setIr v).getR j = s.getR j := rfl
@[simp] theorem State.getX_setIr (s : State) (v : Word) (j : XReg) : (s.setIr v).getX j = s.getX j := rfl

/-! ## setMar -/

@[simp] theorem State.setMar_r (s : State) (v : BitVec 12) : (s.setMar v).r = s.r := rfl
@[simp] theorem State.setMar_x (s : State) (v : BitVec 12) : (s.setMar v).x = s.x := rfl
@[simp] theorem State.setMar_pc (s : State) (v : BitVec 12) : (s.setMar v).pc = s.pc := rfl
@[simp] theorem State.setMar_ir (s : State) (v : BitVec 12) : (s.setMar v).ir = s.ir := rfl
@[simp] theorem State.setMar_mar (s : State) (v : BitVec 12) : (s.setMar v).mar = v := rfl
@[simp] theorem State.setMar_mbr (s : State) (v : BitVec 12) : (s.setMar v).mbr = s.mbr := rfl
@[simp] theorem State.setMar_cc (s : State) (v : BitVec 12) : (s.setMar v).cc = s.cc := rfl
@[simp] theorem State.setMar_mfr (s : State) (v : BitVec 12) : (s.setMar v).mfr = s.mfr := rfl
@[simp] theorem State.setMar_halted (s : State) (v : BitVec 12) : (s.setMar v).halted = s.halted := rfl
@[simp] theorem State.setMar_mem (s : State) (v : BitVec 12) : (s.setMar v).mem = s.mem := rfl
@[simp] theorem State.setMar_cache (s : State) (v : BitVec 12) : (s.setMar v).cache = s.cache := rfl
@[simp] theorem State.setMar_consoleIn (s : State) (v : BitVec 12) : (s.setMar v).consoleIn = s.consoleIn := rfl
@[simp] theorem State.setMar_consoleOut (s : State) (v : BitVec 12) : (s.setMar v).consoleOut = s.consoleOut := rfl
@[simp] theorem State.setMar_cfg (s : State) (v : BitVec 12) : (s.setMar v).cfg = s.cfg := rfl
@[simp] theorem State.getR_setMar (s : State) (v : BitVec 12) (j : Reg) : (s.setMar v).getR j = s.getR j := rfl
@[simp] theorem State.getX_setMar (s : State) (v : BitVec 12) (j : XReg) : (s.setMar v).getX j = s.getX j := rfl

/-! ## setMbr -/

@[simp] theorem State.setMbr_r (s : State) (v : Word) : (s.setMbr v).r = s.r := rfl
@[simp] theorem State.setMbr_x (s : State) (v : Word) : (s.setMbr v).x = s.x := rfl
@[simp] theorem State.setMbr_pc (s : State) (v : Word) : (s.setMbr v).pc = s.pc := rfl
@[simp] theorem State.setMbr_ir (s : State) (v : Word) : (s.setMbr v).ir = s.ir := rfl
@[simp] theorem State.setMbr_mar (s : State) (v : Word) : (s.setMbr v).mar = s.mar := rfl
@[simp] theorem State.setMbr_mbr (s : State) (v : Word) : (s.setMbr v).mbr = v := rfl
@[simp] theorem State.setMbr_cc (s : State) (v : Word) : (s.setMbr v).cc = s.cc := rfl
@[simp] theorem State.setMbr_mfr (s : State) (v : Word) : (s.setMbr v).mfr = s.mfr := rfl
@[simp] theorem State.setMbr_halted (s : State) (v : Word) : (s.setMbr v).halted = s.halted := rfl
@[simp] theorem State.setMbr_mem (s : State) (v : Word) : (s.setMbr v).mem = s.mem := rfl
@[simp] theorem State.setMbr_cache (s : State) (v : Word) : (s.setMbr v).cache = s.cache := rfl
@[simp] theorem State.setMbr_consoleIn (s : State) (v : Word) : (s.setMbr v).consoleIn = s.consoleIn := rfl
@[simp] theorem State.setMbr_consoleOut (s : State) (v : Word) : (s.setMbr v).consoleOut = s.consoleOut := rfl
@[simp] theorem State.setMbr_cfg (s : State) (v : Word) : (s.setMbr v).cfg = s.cfg := rfl
@[simp] theorem State.getR_setMbr (s : State) (v : Word) (j : Reg) : (s.setMbr v).getR j = s.getR j := rfl
@[simp] theorem State.getX_setMbr (s : State) (v : Word) (j : XReg) : (s.setMbr v).getX j = s.getX j := rfl

/-! ## setCc -/

@[simp] theorem State.setCc_r (s : State) (v : BitVec 4) : (s.setCc v).r = s.r := rfl
@[simp] theorem State.setCc_x (s : State) (v : BitVec 4) : (s.setCc v).x = s.x := rfl
@[simp] theorem State.setCc_pc (s : State) (v : BitVec 4) : (s.setCc v).pc = s.pc := rfl
@[simp] theorem State.setCc_ir (s : State) (v : BitVec 4) : (s.setCc v).ir = s.ir := rfl
@[simp] theorem State.setCc_mar (s : State) (v : BitVec 4) : (s.setCc v).mar = s.mar := rfl
@[simp] theorem State.setCc_mbr (s : State) (v : BitVec 4) : (s.setCc v).mbr = s.mbr := rfl
@[simp] theorem State.setCc_cc (s : State) (v : BitVec 4) : (s.setCc v).cc = v := rfl
@[simp] theorem State.setCc_mfr (s : State) (v : BitVec 4) : (s.setCc v).mfr = s.mfr := rfl
@[simp] theorem State.setCc_halted (s : State) (v : BitVec 4) : (s.setCc v).halted = s.halted := rfl
@[simp] theorem State.setCc_mem (s : State) (v : BitVec 4) : (s.setCc v).mem = s.mem := rfl
@[simp] theorem State.setCc_cache (s : State) (v : BitVec 4) : (s.setCc v).cache = s.cache := rfl
@[simp] theorem State.setCc_consoleIn (s : State) (v : BitVec 4) : (s.setCc v).consoleIn = s.consoleIn := rfl
@[simp] theorem State.setCc_consoleOut (s : State) (v : BitVec 4) : (s.setCc v).consoleOut = s.consoleOut := rfl
@[simp] theorem State.setCc_cfg (s : State) (v : BitVec 4) : (s.setCc v).cfg = s.cfg := rfl
@[simp] theorem State.getR_setCc (s : State) (v : BitVec 4) (j : Reg) : (s.setCc v).getR j = s.getR j := rfl
@[simp] theorem State.getX_setCc (s : State) (v : BitVec 4) (j : XReg) : (s.setCc v).getX j = s.getX j := rfl

/-! ## setMfr -/

@[simp] theorem State.setMfr_r (s : State) (v : BitVec 4) : (s.setMfr v).r = s.r := rfl
@[simp] theorem State.setMfr_x (s : State) (v : BitVec 4) : (s.setMfr v).x = s.x := rfl
@[simp] theorem State.setMfr_pc (s : State) (v : BitVec 4) : (s.setMfr v).pc = s.pc := rfl
@[simp] theorem State.setMfr_ir (s : State) (v : BitVec 4) : (s.setMfr v).ir = s.ir := rfl
@[simp] theorem State.setMfr_mar (s : State) (v : BitVec 4) : (s.setMfr v).mar = s.mar := rfl
@[simp] theorem State.setMfr_mbr (s : State) (v : BitVec 4) : (s.setMfr v).mbr = s.mbr := rfl
@[simp] theorem State.setMfr_cc (s : State) (v : BitVec 4) : (s.setMfr v).cc = s.cc := rfl
@[simp] theorem State.setMfr_mfr (s : State) (v : BitVec 4) : (s.setMfr v).mfr = v := rfl
@[simp] theorem State.setMfr_halted (s : State) (v : BitVec 4) : (s.setMfr v).halted = s.halted := rfl
@[simp] theorem State.setMfr_mem (s : State) (v : BitVec 4) : (s.setMfr v).mem = s.mem := rfl
@[simp] theorem State.setMfr_cache (s : State) (v : BitVec 4) : (s.setMfr v).cache = s.cache := rfl
@[simp] theorem State.setMfr_consoleIn (s : State) (v : BitVec 4) : (s.setMfr v).consoleIn = s.consoleIn := rfl
@[simp] theorem State.setMfr_consoleOut (s : State) (v : BitVec 4) : (s.setMfr v).consoleOut = s.consoleOut := rfl
@[simp] theorem State.setMfr_cfg (s : State) (v : BitVec 4) : (s.setMfr v).cfg = s.cfg := rfl
@[simp] theorem State.getR_setMfr (s : State) (v : BitVec 4) (j : Reg) : (s.setMfr v).getR j = s.getR j := rfl
@[simp] theorem State.getX_setMfr (s : State) (v : BitVec 4) (j : XReg) : (s.setMfr v).getX j = s.getX j := rfl

/-! ## setHalted -/

@[simp] theorem State.setHalted_r (s : State) (v : Bool) : (s.setHalted v).r = s.r := rfl
@[simp] theorem State.setHalted_x (s : State) (v : Bool) : (s.setHalted v).x = s.x := rfl
@[simp] theorem State.setHalted_pc (s : State) (v : Bool) : (s.setHalted v).pc = s.pc := rfl
@[simp] theorem State.setHalted_ir (s : State) (v : Bool) : (s.setHalted v).ir = s.ir := rfl
@[simp] theorem State.setHalted_mar (s : State) (v : Bool) : (s.setHalted v).mar = s.mar := rfl
@[simp] theorem State.setHalted_mbr (s : State) (v : Bool) : (s.setHalted v).mbr = s.mbr := rfl
@[simp] theorem State.setHalted_cc (s : State) (v : Bool) : (s.setHalted v).cc = s.cc := rfl
@[simp] theorem State.setHalted_mfr (s : State) (v : Bool) : (s.setHalted v).mfr = s.mfr := rfl
@[simp] theorem State.setHalted_halted (s : State) (v : Bool) : (s.setHalted v).halted = v := rfl
@[simp] theorem State.setHalted_mem (s : State) (v : Bool) : (s.setHalted v).mem = s.mem := rfl
@[simp] theorem State.setHalted_cache (s : State) (v : Bool) : (s.setHalted v).cache = s.cache := rfl
@[simp] theorem State.setHalted_consoleIn (s : State) (v : Bool) : (s.setHalted v).consoleIn = s.consoleIn := rfl
@[simp] theorem State.setHalted_consoleOut (s : State) (v : Bool) : (s.setHalted v).consoleOut = s.consoleOut := rfl
@[simp] theorem State.setHalted_cfg (s : State) (v : Bool) : (s.setHalted v).cfg = s.cfg := rfl
@[simp] theorem State.getR_setHalted (s : State) (v : Bool) (j : Reg) : (s.setHalted v).getR j = s.getR j := rfl
@[simp] theorem State.getX_setHalted (s : State) (v : Bool) (j : XReg) : (s.setHalted v).getX j = s.getX j := rfl

/-! ## setMem -/

@[simp] theorem State.setMem_r (s : State) (v : Memory) : (s.setMem v).r = s.r := rfl
@[simp] theorem State.setMem_x (s : State) (v : Memory) : (s.setMem v).x = s.x := rfl
@[simp] theorem State.setMem_pc (s : State) (v : Memory) : (s.setMem v).pc = s.pc := rfl
@[simp] theorem State.setMem_ir (s : State) (v : Memory) : (s.setMem v).ir = s.ir := rfl
@[simp] theorem State.setMem_mar (s : State) (v : Memory) : (s.setMem v).mar = s.mar := rfl
@[simp] theorem State.setMem_mbr (s : State) (v : Memory) : (s.setMem v).mbr = s.mbr := rfl
@[simp] theorem State.setMem_cc (s : State) (v : Memory) : (s.setMem v).cc = s.cc := rfl
@[simp] theorem State.setMem_mfr (s : State) (v : Memory) : (s.setMem v).mfr = s.mfr := rfl
@[simp] theorem State.setMem_halted (s : State) (v : Memory) : (s.setMem v).halted = s.halted := rfl
@[simp] theorem State.setMem_mem (s : State) (v : Memory) : (s.setMem v).mem = v := rfl
@[simp] theorem State.setMem_cache (s : State) (v : Memory) : (s.setMem v).cache = s.cache := rfl
@[simp] theorem State.setMem_consoleIn (s : State) (v : Memory) : (s.setMem v).consoleIn = s.consoleIn := rfl
@[simp] theorem State.setMem_consoleOut (s : State) (v : Memory) : (s.setMem v).consoleOut = s.consoleOut := rfl
@[simp] theorem State.setMem_cfg (s : State) (v : Memory) : (s.setMem v).cfg = s.cfg := rfl
@[simp] theorem State.getR_setMem (s : State) (v : Memory) (j : Reg) : (s.setMem v).getR j = s.getR j := rfl
@[simp] theorem State.getX_setMem (s : State) (v : Memory) (j : XReg) : (s.setMem v).getX j = s.getX j := rfl

/-! ## setCache -/

@[simp] theorem State.setCache_r (s : State) (v : Cache) : (s.setCache v).r = s.r := rfl
@[simp] theorem State.setCache_x (s : State) (v : Cache) : (s.setCache v).x = s.x := rfl
@[simp] theorem State.setCache_pc (s : State) (v : Cache) : (s.setCache v).pc = s.pc := rfl
@[simp] theorem State.setCache_ir (s : State) (v : Cache) : (s.setCache v).ir = s.ir := rfl
@[simp] theorem State.setCache_mar (s : State) (v : Cache) : (s.setCache v).mar = s.mar := rfl
@[simp] theorem State.setCache_mbr (s : State) (v : Cache) : (s.setCache v).mbr = s.mbr := rfl
@[simp] theorem State.setCache_cc (s : State) (v : Cache) : (s.setCache v).cc = s.cc := rfl
@[simp] theorem State.setCache_mfr (s : State) (v : Cache) : (s.setCache v).mfr = s.mfr := rfl
@[simp] theorem State.setCache_halted (s : State) (v : Cache) : (s.setCache v).halted = s.halted := rfl
@[simp] theorem State.setCache_mem (s : State) (v : Cache) : (s.setCache v).mem = s.mem := rfl
@[simp] theorem State.setCache_cache (s : State) (v : Cache) : (s.setCache v).cache = v := rfl
@[simp] theorem State.setCache_consoleIn (s : State) (v : Cache) : (s.setCache v).consoleIn = s.consoleIn := rfl
@[simp] theorem State.setCache_consoleOut (s : State) (v : Cache) : (s.setCache v).consoleOut = s.consoleOut := rfl
@[simp] theorem State.setCache_cfg (s : State) (v : Cache) : (s.setCache v).cfg = s.cfg := rfl
@[simp] theorem State.getR_setCache (s : State) (v : Cache) (j : Reg) : (s.setCache v).getR j = s.getR j := rfl
@[simp] theorem State.getX_setCache (s : State) (v : Cache) (j : XReg) : (s.setCache v).getX j = s.getX j := rfl

/-! ## setConsoleIn -/

@[simp] theorem State.setConsoleIn_r (s : State) (v : List (Option Int)) : (s.setConsoleIn v).r = s.r := rfl
@[simp] theorem State.setConsoleIn_x (s : State) (v : List (Option Int)) : (s.setConsoleIn v).x = s.x := rfl
@[simp] theorem State.setConsoleIn_pc (s : State) (v : List (Option Int)) : (s.setConsoleIn v).pc = s.pc := rfl
@[simp] theorem State.setConsoleIn_ir (s : State) (v : List (Option Int)) : (s.setConsoleIn v).ir = s.ir := rfl
@[simp] theorem State.setConsoleIn_mar (s : State) (v : List (Option Int)) : (s.setConsoleIn v).mar = s.mar := rfl
@[simp] theorem State.setConsoleIn_mbr (s : State) (v : List (Option Int)) : (s.setConsoleIn v).mbr = s.mbr := rfl
@[simp] theorem State.setConsoleIn_cc (s : State) (v : List (Option Int)) : (s.setConsoleIn v).cc = s.cc := rfl
@[simp] theorem State.setConsoleIn_mfr (s : State) (v : List (Option Int)) : (s.setConsoleIn v).mfr = s.mfr := rfl
@[simp] theorem State.setConsoleIn_halted (s : State) (v : List (Option Int)) : (s.setConsoleIn v).halted = s.halted := rfl
@[simp] theorem State.setConsoleIn_mem (s : State) (v : List (Option Int)) : (s.setConsoleIn v).mem = s.mem := rfl
@[simp] theorem State.setConsoleIn_cache (s : State) (v : List (Option Int)) : (s.setConsoleIn v).cache = s.cache := rfl
@[simp] theorem State.setConsoleIn_consoleIn (s : State) (v : List (Option Int)) : (s.setConsoleIn v).consoleIn = v := rfl
@[simp] theorem State.setConsoleIn_consoleOut (s : State) (v : List (Option Int)) : (s.setConsoleIn v).consoleOut = s.consoleOut := rfl
@[simp] theorem State.setConsoleIn_cfg (s : State) (v : List (Option Int)) : (s.setConsoleIn v).cfg = s.cfg := rfl
@[simp] theorem State.getR_setConsoleIn (s : State) (v : List (Option Int)) (j : Reg) : (s.setConsoleIn v).getR j = s.getR j := rfl
@[simp] theorem State.getX_setConsoleIn (s : State) (v : List (Option Int)) (j : XReg) : (s.setConsoleIn v).getX j = s.getX j := rfl

/-! ## setConsoleOut -/

@[simp] theorem State.setConsoleOut_r (s : State) (v : List Word) : (s.setConsoleOut v).r = s.r := rfl
@[simp] theorem State.setConsoleOut_x (s : State) (v : List Word) : (s.setConsoleOut v).x = s.x := rfl
@[simp] theorem State.setConsoleOut_pc (s : State) (v : List Word) : (s.setConsoleOut v).pc = s.pc := rfl
@[simp] theorem State.setConsoleOut_ir (s : State) (v : List Word) : (s.setConsoleOut v).ir = s.ir := rfl
@[simp] theorem State.setConsoleOut_mar (s : State) (v : List Word) : (s.setConsoleOut v).mar = s.mar := rfl
@[simp] theorem State.setConsoleOut_mbr (s : State) (v : List Word) : (s.setConsoleOut v).mbr = s.mbr := rfl
@[simp] theorem State.setConsoleOut_cc (s : State) (v : List Word) : (s.setConsoleOut v).cc = s.cc := rfl
@[simp] theorem State.setConsoleOut_mfr (s : State) (v : List Word) : (s.setConsoleOut v).mfr = s.mfr := rfl
@[simp] theorem State.setConsoleOut_halted (s : State) (v : List Word) : (s.setConsoleOut v).halted = s.halted := rfl
@[simp] theorem State.setConsoleOut_mem (s : State) (v : List Word) : (s.setConsoleOut v).mem = s.mem := rfl
@[simp] theorem State.setConsoleOut_cache (s : State) (v : List Word) : (s.setConsoleOut v).cache = s.cache := rfl
@[simp] theorem State.setConsoleOut_consoleIn (s : State) (v : List Word) : (s.setConsoleOut v).consoleIn = s.consoleIn := rfl
@[simp] theorem State.setConsoleOut_consoleOut (s : State) (v : List Word) : (s.setConsoleOut v).consoleOut = v := rfl
@[simp] theorem State.setConsoleOut_cfg (s : State) (v : List Word) : (s.setConsoleOut v).cfg = s.cfg := rfl
@[simp] theorem State.getR_setConsoleOut (s : State) (v : List Word) (j : Reg) : (s.setConsoleOut v).getR j = s.getR j := rfl
@[simp] theorem State.getX_setConsoleOut (s : State) (v : List Word) (j : XReg) : (s.setConsoleOut v).getX j = s.getX j := rfl

/-! ## setCcBit -/

@[simp] theorem State.setCcBit_r (s : State) (i : Fin 4) (v : Bool) : (s.setCcBit i v).r = s.r := rfl
@[simp] theorem State.setCcBit_x (s : State) (i : Fin 4) (v : Bool) : (s.setCcBit i v).x = s.x := rfl
@[simp] theorem State.setCcBit_pc (s : State) (i : Fin 4) (v : Bool) : (s.setCcBit i v).pc = s.pc := rfl
@[simp] theorem State.setCcBit_ir (s : State) (i : Fin 4) (v : Bool) : (s.setCcBit i v).ir = s.ir := rfl
@[simp] theorem State.setCcBit_mar (s : State) (i : Fin 4) (v : Bool) : (s.setCcBit i v).mar = s.mar := rfl
@[simp] theorem State.setCcBit_mbr (s : State) (i : Fin 4) (v : Bool) : (s.setCcBit i v).mbr = s.mbr := rfl
@[simp] theorem State.setCcBit_cc (s : State) (i : Fin 4) (v : Bool) : (s.setCcBit i v).cc = putBit s.cc i v := rfl
@[simp] theorem State.setCcBit_mfr (s : State) (i : Fin 4) (v : Bool) : (s.setCcBit i v).mfr = s.mfr := rfl
@[simp] theorem State.setCcBit_halted (s : State) (i : Fin 4) (v : Bool) : (s.setCcBit i v).halted = s.halted := rfl
@[simp] theorem State.setCcBit_mem (s : State) (i : Fin 4) (v : Bool) : (s.setCcBit i v).mem = s.mem := rfl
@[simp] theorem State.setCcBit_cache (s : State) (i : Fin 4) (v : Bool) : (s.setCcBit i v).cache = s.cache := rfl
@[simp] theorem State.setCcBit_consoleIn (s : State) (i : Fin 4) (v : Bool) : (s.setCcBit i v).consoleIn = s.consoleIn := rfl
@[simp] theorem State.setCcBit_consoleOut (s : State) (i : Fin 4) (v : Bool) : (s.setCcBit i v).consoleOut = s.consoleOut := rfl
@[simp] theorem State.setCcBit_cfg (s : State) (i : Fin 4) (v : Bool) : (s.setCcBit i v).cfg = s.cfg := rfl
@[simp] theorem State.getR_setCcBit (s : State) (i : Fin 4) (v : Bool) (j : Reg) : (s.setCcBit i v).getR j = s.getR j := rfl
@[simp] theorem State.getX_setCcBit (s : State) (i : Fin 4) (v : Bool) (j : XReg) : (s.setCcBit i v).getX j = s.getX j := rfl

/-! ## takeFault -/

@[simp] theorem takeFault_r (f : CpuFault) (s : State) : (takeFault f s).r = s.r := rfl
@[simp] theorem takeFault_x (f : CpuFault) (s : State) : (takeFault f s).x = s.x := rfl
@[simp] theorem takeFault_pc (f : CpuFault) (s : State) : (takeFault f s).pc = s.pc := rfl
@[simp] theorem takeFault_ir (f : CpuFault) (s : State) : (takeFault f s).ir = s.ir := rfl
@[simp] theorem takeFault_mar (f : CpuFault) (s : State) : (takeFault f s).mar = s.mar := rfl
@[simp] theorem takeFault_mbr (f : CpuFault) (s : State) : (takeFault f s).mbr = s.mbr := rfl
@[simp] theorem takeFault_cc (f : CpuFault) (s : State) : (takeFault f s).cc = s.cc := rfl
@[simp] theorem takeFault_mfr (f : CpuFault) (s : State) : (takeFault f s).mfr = s.mfr ||| bitMask (faultBit s.cfg f) := rfl
@[simp] theorem takeFault_halted (f : CpuFault) (s : State) : (takeFault f s).halted = true := rfl
@[simp] theorem takeFault_mem (f : CpuFault) (s : State) : (takeFault f s).mem = s.mem := rfl
@[simp] theorem takeFault_cache (f : CpuFault) (s : State) : (takeFault f s).cache = s.cache := rfl
@[simp] theorem takeFault_consoleIn (f : CpuFault) (s : State) : (takeFault f s).consoleIn = s.consoleIn := rfl
@[simp] theorem takeFault_consoleOut (f : CpuFault) (s : State) : (takeFault f s).consoleOut = s.consoleOut := rfl
@[simp] theorem takeFault_cfg (f : CpuFault) (s : State) : (takeFault f s).cfg = s.cfg := rfl
@[simp] theorem getR_takeFault (f : CpuFault) (s : State) (j : Reg) : (takeFault f s).getR j = s.getR j := rfl
@[simp] theorem getX_takeFault (f : CpuFault) (s : State) (j : XReg) : (takeFault f s).getX j = s.getX j := rfl

/-! ## jumpTo -/

@[simp] theorem jumpTo_r (e : Nat) (s : State) : (jumpTo e s).r = s.r := rfl
@[simp] theorem jumpTo_x (e : Nat) (s : State) : (jumpTo e s).x = s.x := rfl
@[simp] theorem jumpTo_pc (e : Nat) (s : State) : (jumpTo e s).pc = BitVec.ofNat 12 e := rfl
@[simp] theorem jumpTo_ir (e : Nat) (s : State) : (jumpTo e s).ir = s.ir := rfl
@[simp] theorem jumpTo_mar (e : Nat) (s : State) : (jumpTo e s).mar = s.mar := rfl
@[simp] theorem jumpTo_mbr (e : Nat) (s : State) : (jumpTo e s).mbr = s.mbr := rfl
@[simp] theorem jumpTo_cc (e : Nat) (s : State) : (jumpTo e s).cc = s.cc := rfl
@[simp] theorem jumpTo_mfr (e : Nat) (s : State) : (jumpTo e s).mfr = s.mfr := rfl
@[simp] theorem jumpTo_halted (e : Nat) (s : State) : (jumpTo e s).halted = s.halted := rfl
@[simp] theorem jumpTo_mem (e : Nat) (s : State) : (jumpTo e s).mem = s.mem := rfl
@[simp] theorem jumpTo_cache (e : Nat) (s : State) : (jumpTo e s).cache = s.cache := rfl
@[simp] theorem jumpTo_consoleIn (e : Nat) (s : State) : (jumpTo e s).consoleIn = s.consoleIn := rfl
@[simp] theorem jumpTo_consoleOut (e : Nat) (s : State) : (jumpTo e s).consoleOut = s.consoleOut := rfl
@[simp] theorem jumpTo_cfg (e : Nat) (s : State) : (jumpTo e s).cfg = s.cfg := rfl
@[simp] theorem getR_jumpTo (e : Nat) (s : State) (j : Reg) : (jumpTo e s).getR j = s.getR j := rfl

/-! ## Registers -/

/-- A general register after a write (R20): the value written, or the old one. -/
@[simp] theorem State.getR_setR (s : State) (i j : Reg) (v : Word) :
    (s.setR i v).getR j = if i = j then v else s.getR j := by
  simp [State.getR, State.setR, Vector.getElem_set, Fin.ext_iff]

/-- An index register after a write (R21). -/
@[simp] theorem State.getX_setX (s : State) (i j : XReg) (v : Word) :
    (s.setX i v).getX j = if i = j then v else s.getX j := by
  cases i <;> cases j <;> rfl

/-- Two register files that read alike are one. -/
theorem State.r_ext {s t : State} (h : ∀ q, s.getR q = t.getR q) : s.r = t.r :=
  Vector.ext fun i hi => h ⟨i, hi⟩

end Sys2Proof.Machine
end

