-- ==== Sys2Proof/Laws/Bits.lean ====
section
/-! SUPPORT. The single bits of the 4-bit registers CC and MFR. -/

namespace Sys2Proof.Machine

@[simp] theorem getElem_bitMask (i j : Fin 4) : (bitMask i)[j.val] = decide (i = j) := by
  revert i j; decide

/-- A bit of a 4-bit value after another was replaced. -/
@[simp] theorem getElem_putBit (v : BitVec 4) (i j : Fin 4) (b : Bool) :
    (putBit v i b)[j.val] = if i = j then b else v[j.val] := by
  cases b <;> by_cases h : i = j <;> simp [putBit, h]

/-- The same, by number. -/
theorem getLsbD_putBit (v : BitVec 4) (i j : Fin 4) (b : Bool) :
    (putBit v i b).getLsbD j = if i = j then b else v.getLsbD j := by
  simp

/-- Four-bit values with the same bits are equal. -/
theorem bits4_ext {v w : BitVec 4} (h : ∀ i : Fin 4, v.getLsbD i = w.getLsbD i) : v = w :=
  BitVec.eq_of_getLsbD_eq fun i hi => h ⟨i, hi⟩

/-- A condition bit after a write (R25). -/
@[simp] theorem State.getCcBit_setCcBit (s : State) (i j : Fin 4) (b : Bool) :
    (s.setCcBit i b).getCcBit j = if i = j then b else s.getCcBit j := by
  simp [State.getCcBit, State.setCcBit]

/-- Writing a general register leaves the condition bits alone. -/
@[simp] theorem State.getCcBit_setR (s : State) (i : Reg) (v : Word) (j : Fin 4) :
    (s.setR i v).getCcBit j = s.getCcBit j := rfl

end Sys2Proof.Machine
end

