-- ==== Sys2Proof/Laws/Memory.lean ====
section
/-! SUPPORT. The memory array: a read after a write, and the canonical form every write keeps. -/

namespace Sys2Proof.Machine

/-! ## Bytes -/

/-- Every listed cell lies above `k`. -/
abbrev Memory.above (k : Nat) (m : Memory) : Prop := ∀ c ∈ m, k < c.1

/-- The cells are strictly rising. -/
abbrev Memory.rising (m : Memory) : Prop := (m.map Prod.fst).Pairwise (· < ·)

theorem Memory.rising_cons {c : Host.Cell} {m : Memory} :
    Memory.rising (c :: m) ↔ Memory.above c.1 m ∧ Memory.rising m := by
  simp [Memory.rising, Memory.above]

/-- A cell below every listed one reads 0. -/
theorem Memory.readByte_of_above {m : Memory} {k a : Nat} (h : m.above k) (ha : a ≤ k) :
    m.readByte a = 0 := by
  induction m with
  | nil => rfl
  | cons c m ih =>
    have hc : k < c.1 := h c (by simp)
    have hne : c.1 ≠ a := by omega
    simp only [Memory.readByte, hne, if_false]
    exact ih fun d hd => h d (by simp [hd])

theorem Memory.mem_writeByte {m : Memory} {a : Nat} {v : BitVec 8} {c : Host.Cell}
    (h : c ∈ m.writeByte a v) : c ∈ m ∨ (c = (a, v) ∧ v ≠ 0) := by
  induction m with
  | nil =>
    by_cases hv : v = 0#8 <;> simp_all [Memory.writeByte]
  | cons d m ih =>
    simp only [Memory.writeByte] at h
    split at h
    · rcases List.mem_cons.1 h with h | h
      · simp [h]
      · rcases ih h with h | ⟨h, hv⟩
        · simp [h]
        · exact .inr ⟨h, hv⟩
    · split at h <;> split at h <;> simp_all <;> tauto

theorem Memory.above_writeByte {m : Memory} {k a : Nat} {v : BitVec 8} (h : m.above k)
    (ha : k < a) : (m.writeByte a v).above k := by
  intro c hc
  rcases Memory.mem_writeByte hc with hc | ⟨rfl, -⟩
  · exact h c hc
  · exact ha

/-- A byte write keeps the cells strictly rising. -/
theorem Memory.rising_writeByte {m : Memory} (a : Nat) (v : BitVec 8) (h : m.rising) :
    (m.writeByte a v).rising := by
  induction m with
  | nil => by_cases hv : v = 0#8 <;> simp [Memory.writeByte, hv, Memory.rising]
  | cons c m ih =>
    obtain ⟨hab, hr⟩ := Memory.rising_cons.1 h
    simp only [Memory.writeByte]
    split
    · next hlt => exact Memory.rising_cons.2 ⟨Memory.above_writeByte hab hlt, ih hr⟩
    · next hlt =>
      split
      · next heq =>
        split
        · exact hr
        · exact Memory.rising_cons.2 ⟨heq ▸ hab, hr⟩
      · next hne =>
        split
        · exact h
        · refine Memory.rising_cons.2 ⟨?_, h⟩
          intro d hd
          have hac : a < c.1 := by omega
          rcases List.mem_cons.1 hd with rfl | hd
          · exact hac
          · exact Nat.lt_trans hac (hab d hd)

/-- A byte read after a byte write. -/
theorem Memory.readByte_writeByte {m : Memory} (h : m.rising) (a b : Nat) (v : BitVec 8) :
    (m.writeByte a v).readByte b = if a = b then v else m.readByte b := by
  induction m with
  | nil =>
    by_cases hv : v = 0#8 <;> by_cases hab : a = b <;> simp [Memory.writeByte, Memory.readByte, hv, hab]
  | cons c m ih =>
    obtain ⟨habove, hr⟩ := Memory.rising_cons.1 h
    obtain ⟨k, x⟩ := c
    simp only [Memory.writeByte]
    split
    · next hlt =>
      simp only [Memory.readByte]
      by_cases hkb : k = b
      · simp [hkb, show a ≠ b by omega]
      · simp [hkb, ih hr]
    · next hlt =>
      split
      · next heq =>
        subst heq
        split
        · next hv =>
          by_cases hkb : k = b
          · subst hkb; simp [hv, Memory.readByte_of_above habove (Nat.le_refl _)]
          · simp [Memory.readByte, hkb]
        · by_cases hkb : k = b <;> simp [Memory.readByte, hkb]
      · next hne =>
        split
        · next hv =>
          by_cases hab : a = b
          · subst hab
            have hka : k ≠ a := hne
            simp only [Memory.readByte, hka, if_false, if_true, hv]
            exact Memory.readByte_of_above habove (show a ≤ k by omega)
          · simp [hab]
        · by_cases hab : a = b <;> simp [Memory.readByte, hab]

/-- A byte write inside the 2048 words keeps the canonical form (R28). -/
theorem Memory.wf_writeByte {m : Memory} (h : m.wf) {a : Nat} (ha : a < 2 * memWords)
    (v : BitVec 8) : (m.writeByte a v).wf := by
  refine ⟨Memory.rising_writeByte a v h.1, fun c hc => ?_⟩
  rcases Memory.mem_writeByte hc with hc | ⟨rfl, hv⟩
  · exact h.2 c hc
  · exact ⟨hv, ha⟩

/-! ## Words -/

/-- A word is its two bytes. -/
theorem word_of_bytes (v : Word) : v.extractLsb' 8 8 ++ v.extractLsb' 0 8 = v := by
  apply BitVec.eq_of_toNat_eq
  have := v.isLt
  simp only [BitVec.toNat_append, BitVec.extractLsb'_toNat, Nat.shiftRight_eq_div_pow]
  rw [← Nat.shiftLeft_add_eq_or_of_lt (by omega), Nat.shiftLeft_eq]
  omega

/-- A cell after a word write: the two cells of the word, every other cell as before (R28). -/
theorem Memory.readByte_writeWord {m : Memory} (h : m.wf) (a b : Nat) (v : Word) :
    (m.writeWord a v).readByte b =
      if b = 2 * a then v.extractLsb' 8 8
      else if b = 2 * a + 1 then v.extractLsb' 0 8 else m.readByte b := by
  unfold Memory.writeWord
  rw [Memory.readByte_writeByte (Memory.rising_writeByte _ _ h.1),
    Memory.readByte_writeByte h.1]
  by_cases h1 : b = 2 * a
  · have : ¬ 2 * a + 1 = b := by omega
    simp [h1]
  · by_cases h2 : b = 2 * a + 1
    · simp [h2]
    · simp [h1, h2, Ne.symm h1, Ne.symm h2]

/-- A word read after a word write: the value written, or the old word (R52). -/
theorem Memory.readWord_writeWord {m : Memory} (h : m.wf) (a b : Nat) (v : Word) :
    (m.writeWord a v).readWord b = if a = b then v else m.readWord b := by
  unfold Memory.readWord
  rw [Memory.readByte_writeWord h, Memory.readByte_writeWord h]
  by_cases hab : a = b
  · subst hab
    have : ¬ 2 * a + 1 = 2 * a := by omega
    simp [word_of_bytes]
  · have h1 : ¬ 2 * b = 2 * a := by omega
    have h2 : ¬ 2 * b = 2 * a + 1 := by omega
    have h3 : ¬ 2 * b + 1 = 2 * a := by omega
    simp [h1, h2, h3, hab]

/-- A word write at an address of the memory keeps the canonical form (R28). -/
theorem Memory.wf_writeWord {m : Memory} (h : m.wf) {a : Nat} (ha : a < memWords) (v : Word) :
    (m.writeWord a v).wf := by
  have ha' : a < 2048 := ha
  exact Memory.wf_writeByte
    (Memory.wf_writeByte h (show 2 * a < 2 * 2048 by omega) _)
    (show 2 * a + 1 < 2 * 2048 by omega) _

/-! ## The memory controller (R52) -/

theorem memCtlRead_ok {a : Nat} {m : Memory} (h : a < memWords) :
    memCtlRead a m = .ok (m.readWord a) := if_pos h

theorem memCtlRead_error {a : Nat} {m : Memory} (h : ¬ a < memWords) :
    memCtlRead a m = .error .addressOutOfRange := if_neg h

theorem memCtlWrite_ok {a : Nat} {v : Word} {m : Memory} (h : a < memWords) :
    memCtlWrite a v m = .ok (m.writeWord a v) := if_pos h

theorem memCtlWrite_error {a : Nat} {v : Word} {m : Memory} (h : ¬ a < memWords) :
    memCtlWrite a v m = .error .addressOutOfRange := if_neg h

/-- A write the memory controller accepts keeps the canonical form (R52). -/
theorem memCtlWrite_wf {a : Nat} {v : Word} {m m' : Memory} (hm : m.wf)
    (h : memCtlWrite a v m = .ok m') : m'.wf := by
  unfold memCtlWrite at h
  split at h
  · next ha => cases h; exact Memory.wf_writeWord hm ha v
  · cases h

end Sys2Proof.Machine
end

