-- ==== Sys2Proof/Laws/Cache.lean ====
section
/-! SUPPORT. The cache: what looking up, installing, reading and writing can do (spec/20_memory.md R60
to R64), and that each keeps the invariants of spec/10_state.md R30. -/

namespace Sys2Proof.Machine

theorem mem_lineIndices (i : Fin 16) : i ∈ lineIndices := by revert i; decide

/-! ## Looking up -/

/-- A hit names a valid line with the tag looked for (R60). -/
theorem Cache.lookup_some {c : Cache} {a : Nat} {i : Fin 16} {l : Line}
    (h : c.lookup a = some (i, l)) : c.lines[i] = some l ∧ l.tag = a := by
  obtain ⟨j, -, hj⟩ := List.exists_of_findSome?_eq_some h
  split at hj
  · next k hk =>
    split at hj
    · next ht => cases hj; exact ⟨hk, ht⟩
    · cases hj
  · cases hj

/-- A miss: no valid line has the tag (R60). -/
theorem Cache.lookup_none {c : Cache} {a : Nat} (h : c.lookup a = none) (i : Fin 16) (l : Line)
    (hl : c.lines[i] = some l) : l.tag ≠ a := by
  intro ht
  have := List.findSome?_eq_none_iff.1 h i (mem_lineIndices i)
  simp [hl, ht] at this

/-- An address is found exactly when it is resident. -/
theorem Cache.lookup_isSome {c : Cache} {a : Nat} : (c.lookup a).isSome ↔ c.resident a := by
  constructor
  · intro h
    obtain ⟨⟨i, l⟩, hil⟩ := Option.isSome_iff_exists.1 h
    exact ⟨i, l, (Cache.lookup_some hil).1, (Cache.lookup_some hil).2⟩
  · rintro ⟨i, l, hl, ht⟩
    by_contra hn
    exact Cache.lookup_none (Option.not_isSome_iff_eq_none.1 hn) i l hl ht

/-! ## Where a new line goes (R63) -/

theorem Cache.freeSlot_some {c : Cache} {i : Fin 16} (h : c.freeSlot = some i) :
    c.lines[i] = none := by
  simpa using List.find?_some h

theorem Cache.freeSlot_none {c : Cache} (h : c.freeSlot = none) (i : Fin 16) :
    (c.lines[i]).isSome := by
  have := List.find?_eq_none.1 h i (mem_lineIndices i)
  simpa [Option.isSome_iff_ne_none] using this

/-- The victim's order is the smallest (R63). -/
theorem Cache.oldest_le (c : Cache) (i : Fin 16) : c.orderAt c.oldest ≤ c.orderAt i := by
  have key : ∀ (is : List (Fin 16)) (b : Fin 16),
      let r := is.foldl (fun b i => if c.orderAt i < c.orderAt b then i else b) b
      c.orderAt r ≤ c.orderAt b ∧ ∀ i ∈ is, c.orderAt r ≤ c.orderAt i := by
    intro is
    induction is with
    | nil => simp
    | cons j is ih =>
      intro b
      simp only [List.foldl_cons, List.mem_cons, forall_eq_or_imp]
      obtain ⟨h1, h2⟩ := ih (if c.orderAt j < c.orderAt b then j else b)
      refine ⟨h1.trans ?_, h1.trans ?_, h2⟩ <;> split <;> omega
  exact (key lineIndices 0).2 i (mem_lineIndices i)

/-! ## What an operation leaves in each line -/

theorem Cache.lines_install (c : Cache) (a : Nat) (v : Word) (j : Fin 16) :
    (c.install a v).lines[j] =
      if c.slot = j then some { tag := a, data := v, order := c.seq } else c.lines[j] := by
  simp [Cache.install, Vector.getElem_set, Fin.ext_iff]

theorem Cache.lines_update (c : Cache) (i : Fin 16) (l : Line) (v : Word) (j : Fin 16) :
    (c.update i l v).lines[j] = if i = j then some { l with data := v } else c.lines[j] := by
  simp [Cache.update, Vector.getElem_set, Fin.ext_iff]

@[simp] theorem Cache.lines_countHit (c : Cache) : c.countHit.lines = c.lines := rfl
@[simp] theorem Cache.lines_countMiss (c : Cache) : c.countMiss.lines = c.lines := rfl
@[simp] theorem Cache.hits_countHit (c : Cache) : c.countHit.hits = c.hits + 1 := rfl
@[simp] theorem Cache.hits_countMiss (c : Cache) : c.countMiss.hits = c.hits := rfl
@[simp] theorem Cache.misses_countHit (c : Cache) : c.countHit.misses = c.misses := rfl
@[simp] theorem Cache.misses_countMiss (c : Cache) : c.countMiss.misses = c.misses + 1 := rfl
@[simp] theorem Cache.seq_countHit (c : Cache) : c.countHit.seq = c.seq := rfl
@[simp] theorem Cache.seq_countMiss (c : Cache) : c.countMiss.seq = c.seq := rfl
@[simp] theorem Cache.hits_install (c : Cache) (a : Nat) (v : Word) :
    (c.install a v).hits = c.hits := rfl
@[simp] theorem Cache.misses_install (c : Cache) (a : Nat) (v : Word) :
    (c.install a v).misses = c.misses := rfl
@[simp] theorem Cache.seq_install (c : Cache) (a : Nat) (v : Word) :
    (c.install a v).seq = c.seq + 1 := rfl
@[simp] theorem Cache.hits_update (c : Cache) (i : Fin 16) (l : Line) (v : Word) :
    (c.update i l v).hits = c.hits := rfl
@[simp] theorem Cache.misses_update (c : Cache) (i : Fin 16) (l : Line) (v : Word) :
    (c.update i l v).misses = c.misses := rfl
@[simp] theorem Cache.seq_update (c : Cache) (i : Fin 16) (l : Line) (v : Word) :
    (c.update i l v).seq = c.seq := rfl

@[simp] theorem Cache.lines_empty (i : Fin 16) : Cache.empty.lines[i.val] = none := by
  simp [Cache.empty]

/-! ## The invariants (R30) -/

theorem Cache.wf_empty : Cache.empty.wf := by
  simp [Cache.wf]

theorem Cache.matches_empty (m : Memory) : Cache.empty.matches m := by
  simp [Cache.matches]

/-- Counting changes no line and no counter of insertions, so both invariants stay. -/
theorem Cache.wf_of_lines {c d : Cache} (h : c.wf) (hl : d.lines = c.lines) (hs : d.seq = c.seq) :
    d.wf := by
  simpa only [Cache.wf, hl, hs] using h

theorem Cache.matches_of_lines {c d : Cache} {m : Memory} (h : c.matches m)
    (hl : d.lines = c.lines) : d.matches m := by
  simpa only [Cache.matches, hl] using h

/-- Installing an in-range address that is not resident keeps R30 (a), (b), (c). -/
theorem Cache.wf_install {c : Cache} {a : Nat} (v : Word) (h : c.wf) (ha : a < memWords)
    (hn : c.lookup a = none) : (c.install a v).wf := by
  obtain ⟨ht, hb, ho⟩ := h
  refine ⟨?_, ?_, ?_⟩
  · intro i j l hl k hk htag
    rw [Cache.lines_install] at hl hk
    split at hl <;> split at hk <;> simp only [Option.mem_def, Option.some.injEq] at hl hk
    · simp_all
    · subst hl; exact absurd htag.symm (Cache.lookup_none hn j k hk)
    · subst hk; exact absurd htag (Cache.lookup_none hn i l hl)
    · exact ht i j l hl k hk htag
  · intro i l hl
    rw [Cache.lines_install] at hl
    split at hl <;> simp only [Option.mem_def, Option.some.injEq] at hl
    · subst hl; exact ⟨ha, by simp⟩
    · obtain ⟨h1, h2⟩ := hb i l hl
      exact ⟨h1, Nat.lt_succ_of_lt h2⟩
  · intro i j l hl k hk hord
    rw [Cache.lines_install] at hl hk
    split at hl <;> split at hk <;> simp only [Option.mem_def, Option.some.injEq] at hl hk
    · simp_all
    · subst hl; exact absurd (hb j k hk).2 (by simp_all)
    · subst hk; exact absurd (hb i l hl).2 (by simp_all)
    · exact ho i j l hl k hk hord

/-- Replacing the data of the line of an address keeps R30 (a), (b), (c). -/
theorem Cache.wf_update {c : Cache} {i : Fin 16} {l : Line} (v : Word) (h : c.wf)
    (hl : c.lines[i] = some l) : (c.update i l v).wf := by
  have back : ∀ (j : Fin 16) (k : Line), k ∈ (c.update i l v).lines[j] →
      ∃ k' ∈ c.lines[j], k'.tag = k.tag ∧ k'.order = k.order := by
    intro j k hk
    rw [Cache.lines_update] at hk
    split at hk
    · next hij => subst hij; simp only [Option.mem_def, Option.some.injEq] at hk
                  exact ⟨l, hl, by simp [← hk], by simp [← hk]⟩
    · exact ⟨k, hk, rfl, rfl⟩
  obtain ⟨ht, hb, ho⟩ := h
  refine ⟨?_, ?_, ?_⟩
  · intro j k x hx y hy hxy
    obtain ⟨x', hx', e1, -⟩ := back j x hx
    obtain ⟨y', hy', e2, -⟩ := back k y hy
    exact ht j k x' hx' y' hy' (by omega)
  · intro j x hx
    obtain ⟨x', hx', e1, e2⟩ := back j x hx
    simpa [← e1, ← e2] using hb j x' hx'
  · intro j k x hx y hy hxy
    obtain ⟨x', hx', -, e1⟩ := back j x hx
    obtain ⟨y', hy', -, e2⟩ := back k y hy
    exact ho j k x' hx' y' hy' (by omega)

/-- Installing what memory holds keeps R30 (e). -/
theorem Cache.matches_install {c : Cache} {m : Memory} (a : Nat) (h : c.matches m) :
    (c.install a (m.readWord a)).matches m := by
  intro i l hl
  rw [Cache.lines_install] at hl
  split at hl
  · simp only [Option.mem_def, Option.some.injEq] at hl; subst hl; rfl
  · exact h i l hl

/-! ## Reading and writing (R60, R61) -/

theorem cacheRead_error {a : Nat} {m : Memory} {c : Cache} (h : ¬ a < memWords) :
    cacheRead a m c = .error .addressOutOfRange := by
  unfold cacheRead; exact if_neg h

theorem cacheRead_hit {a : Nat} {m : Memory} {c : Cache} {i : Fin 16} {l : Line}
    (h : a < memWords) (hl : c.lookup a = some (i, l)) :
    cacheRead a m c = .ok (l.data, c.countHit) := by
  unfold cacheRead; simp only [if_pos h, hl]

theorem cacheRead_miss {a : Nat} {m : Memory} {c : Cache} (h : a < memWords)
    (hl : c.lookup a = none) :
    cacheRead a m c = .ok (m.readWord a, (c.install a (m.readWord a)).countMiss) := by
  unfold cacheRead; simp only [if_pos h, hl, memCtlRead_ok h]

theorem cacheWrite_error {a : Nat} {v : Word} {m : Memory} {c : Cache} (h : ¬ a < memWords) :
    cacheWrite a v m c = .error .addressOutOfRange := by
  unfold cacheWrite; simp only [memCtlWrite_error h]

theorem cacheWrite_hit {a : Nat} {v : Word} {m : Memory} {c : Cache} {i : Fin 16} {l : Line}
    (h : a < memWords) (hl : c.lookup a = some (i, l)) :
    cacheWrite a v m c = .ok (m.writeWord a v, (c.update i l v).countHit) := by
  unfold cacheWrite; simp only [memCtlWrite_ok h, hl]

theorem cacheWrite_miss {a : Nat} {v : Word} {m : Memory} {c : Cache} (h : a < memWords)
    (hl : c.lookup a = none) :
    cacheWrite a v m c = .ok (m.writeWord a v, (c.install a v).countMiss) := by
  unfold cacheWrite; simp only [memCtlWrite_ok h, hl]

/-- Everything a read of an in-range address does: it answers some word, keeps R30 (a), (b), (c),
counts one access and loses no valid line. -/
theorem cacheRead_ok {a : Nat} (m : Memory) {c : Cache} (ha : a < memWords) :
    ∃ v c', cacheRead a m c = .ok (v, c') ∧ (c.wf → c'.wf) ∧
      (c.matches m → v = m.readWord a ∧ c'.matches m) ∧
      c'.hits + c'.misses = c.hits + c.misses + 1 ∧
      ∀ i : Fin 16, (c.lines[i]).isSome → (c'.lines[i]).isSome := by
  rcases hl : c.lookup a with _ | ⟨i, l⟩
  · refine ⟨_, _, cacheRead_miss ha hl, fun h => ?_, fun h => ⟨rfl, ?_⟩, ?_, ?_⟩
    · exact Cache.wf_of_lines (Cache.wf_install _ h ha hl) rfl rfl
    · exact Cache.matches_of_lines (Cache.matches_install a h) rfl
    · simp; omega
    · intro i hi
      rw [Cache.lines_countMiss, Cache.lines_install]
      split <;> simp_all
  · obtain ⟨hi, ht⟩ := Cache.lookup_some hl
    refine ⟨_, _, cacheRead_hit ha hl, fun h => ?_, fun h => ⟨?_, ?_⟩, ?_, fun j hj => hj⟩
    · exact Cache.wf_of_lines h rfl rfl
    · rw [h i l hi, ht]
    · exact Cache.matches_of_lines h rfl
    · simp; omega

/-- Everything a write of an in-range address does: memory has the word, R30 (a), (b), (c) stay, with
a canonical memory (e) stays, one access is counted and no valid line is lost. -/
theorem cacheWrite_ok {a : Nat} (v : Word) (m : Memory) {c : Cache} (ha : a < memWords) :
    ∃ c', cacheWrite a v m c = .ok (m.writeWord a v, c') ∧ (c.wf → c'.wf) ∧
      (m.wf → c.wf → c.matches m → c'.matches (m.writeWord a v)) ∧
      c'.hits + c'.misses = c.hits + c.misses + 1 ∧
      ∀ i : Fin 16, (c.lines[i]).isSome → (c'.lines[i]).isSome := by
  rcases hl : c.lookup a with _ | ⟨i, l⟩
  · refine ⟨_, cacheWrite_miss ha hl, fun h => ?_, fun hm hc h => ?_, ?_, ?_⟩
    · exact Cache.wf_of_lines (Cache.wf_install _ h ha hl) rfl rfl
    · intro j k hk
      rw [Memory.readWord_writeWord hm]
      rw [Cache.lines_countMiss, Cache.lines_install] at hk
      split at hk
      · simp only [Option.mem_def, Option.some.injEq] at hk; subst hk; simp
      · rw [if_neg (Ne.symm (Cache.lookup_none hl j k hk))]; exact h j k hk
    · simp; omega
    · intro i hi
      rw [Cache.lines_countMiss, Cache.lines_install]
      split <;> simp_all
  · obtain ⟨hi, ht⟩ := Cache.lookup_some hl
    refine ⟨_, cacheWrite_hit ha hl, fun h => ?_, fun hm hc h => ?_, ?_, ?_⟩
    · exact Cache.wf_of_lines (Cache.wf_update v h hi) rfl rfl
    · intro j k hk
      rw [Memory.readWord_writeWord hm]
      rw [Cache.lines_countHit, Cache.lines_update] at hk
      split at hk
      · simp only [Option.mem_def, Option.some.injEq] at hk; subst hk; simp [ht]
      · next hij =>
        have hne : a ≠ k.tag := fun e => hij (hc.1 i j l hi k hk (by omega))
        rw [if_neg hne]; exact h j k hk
    · simp; omega
    · intro j hj
      rw [Cache.lines_countHit, Cache.lines_update]
      split <;> simp_all

end Sys2Proof.Machine
end

