-- ==== Sys2Proof/Laws/Access.lean ====
section
/-! SUPPORT. The CPU's access path (spec/20_memory.md R66, R67), effective addresses
(spec/40_cycle_ea_halt.md R124, R127) and the fetch (R121): what each can answer, said once. -/

namespace Sys2Proof.Machine

/-! ## Going on after an access -/

@[simp] theorem Access.andThen_done {α : Type} (v : α) (s : State) (k : α → State → Result) :
    (Access.done v s).andThen k = k v s := rfl

@[simp] theorem Access.andThen_stopped {α : Type} (s : State) (k : α → State → Result) :
    (Access.stopped s : Access α).andThen k = .next s := rfl

/-- An access that goes on to a next state ends in a next state. -/
theorem Access.andThen_next {α : Type} {x : Access α} {k : α → State → Result}
    (hk : ∀ v s, ∃ t, k v s = .next t) : ∃ t, x.andThen k = .next t := by
  cases x with
  | done v s => exact hk v s
  | stopped s => exact ⟨s, rfl⟩

/-! ## The frame of reads -/

theorem SameButAccess.refl (s : State) : SameButAccess s s := rfl

theorem SameButAccess.trans {s t u : State} (h : SameButAccess s t) (g : SameButAccess t u) :
    SameButAccess s u := by
  rw [SameButAccess] at h
  rw [SameButAccess, g, h]

theorem SameButAccess.fault {s t u : State} (h : SameButAccess s t) (g : MemoryFaultFrom t u) :
    MemoryFaultFrom s u := by
  rw [SameButAccess] at h
  rw [MemoryFaultFrom, g, h]

/-- What `n` reads that succeed do to a state (R66): MAR, MBR and the cache alone change, R30 stays,
`n` accesses are counted, no valid line is lost. -/
structure Reads (n : Nat) (s t : State) : Prop where
  same : SameButAccess s t
  wf : s.cache.wf → t.cache.wf
  coherent : s.coherent → t.coherent
  count : t.cache.accesses = s.cache.accesses + n
  valid : ∀ i : Fin 16, (s.cache.lines[i]).isSome → (t.cache.lines[i]).isSome

theorem Reads.zero (s : State) : Reads 0 s s :=
  ⟨rfl, id, id, rfl, fun _ h => h⟩

theorem Reads.trans {n k : Nat} {s t u : State} (h : Reads n s t) (g : Reads k t u) :
    Reads (n + k) s u :=
  ⟨h.same.trans g.same, g.wf ∘ h.wf, g.coherent ∘ h.coherent,
    by rw [g.count, h.count, Nat.add_assoc], fun i => g.valid i ∘ h.valid i⟩

theorem Reads.mem {n : Nat} {s t : State} (h : Reads n s t) : t.mem = s.mem := by
  rw [h.same]

theorem Reads.inv {n : Nat} {s t : State} (h : Reads n s t) (hs : s.Inv) : t.Inv :=
  ⟨h.mem ▸ hs.1, h.wf hs.2.1, h.coherent hs.2.2⟩

/-! ## MemRead and MemWrite -/

/-- `MemRead` out of range: MAR is set and MemoryFault taken, nothing else (R66, R202). -/
theorem memRead_stopped {a : Nat} (s : State) (h : ¬ a < memWords) :
    memRead a s = .stopped (takeFault .memoryFault (s.setMar (BitVec.ofNat 12 a))) := by
  unfold memRead; rw [cacheRead_error h]

/-- `MemRead` in range: one read, MAR the address, MBR the word, which is memory's when every valid
line is (R66, R68). -/
theorem memRead_done {a : Nat} (s : State) (h : a < memWords) :
    ∃ v t, memRead a s = .done v t ∧ Reads 1 s t ∧ t.mar = BitVec.ofNat 12 a ∧ t.mbr = v ∧
      (s.coherent → v = s.mem.readWord a) := by
  obtain ⟨v, c, hc, hwf, hco, hcount, hvalid⟩ := cacheRead_ok s.mem (c := s.cache) h
  refine ⟨v, ((s.setMar (BitVec.ofNat 12 a)).setCache c).setMbr v, ?_, ?_, rfl, rfl,
    fun hs => (hco hs).1⟩
  · unfold memRead; rw [hc]
  · exact ⟨rfl, hwf, fun hs => (hco hs).2, hcount, hvalid⟩

/-- `MemWrite` out of range: MAR is set and MemoryFault taken, nothing else (R67, R202). -/
theorem memWrite_stopped {a : Nat} (v : Word) (s : State) (h : ¬ a < memWords) :
    memWrite a v s = .stopped (takeFault .memoryFault (s.setMar (BitVec.ofNat 12 a))) := by
  unfold memWrite; rw [cacheWrite_error h]

/-- `MemWrite` in range: the word is in memory, MAR and MBR are set, R30 stays, one access is counted,
no valid line is lost, and nothing else changes (R67, R68). -/
theorem memWrite_done {a : Nat} (v : Word) (s : State) (h : a < memWords) :
    ∃ t, memWrite a v s = .done () t ∧
      t = { s with
        mar := BitVec.ofNat 12 a, mbr := v, mem := s.mem.writeWord a v, cache := t.cache } ∧
      (s.cache.wf → t.cache.wf) ∧ (s.mem.wf → s.cache.wf → s.coherent → t.coherent) ∧
      t.cache.accesses = s.cache.accesses + 1 ∧
      ∀ i : Fin 16, (s.cache.lines[i]).isSome → (t.cache.lines[i]).isSome := by
  obtain ⟨c, hc, hwf, hco, hcount, hvalid⟩ := cacheWrite_ok v s.mem (c := s.cache) h
  refine ⟨(((s.setMar (BitVec.ofNat 12 a)).setMem (s.mem.writeWord a v)).setCache c).setMbr v,
    ?_, rfl, hwf, hco, hcount, hvalid⟩
  unfold memWrite; rw [hc]

/-- `MemWrite` in range keeps the invariants (R68). -/
theorem memWrite_inv {a : Nat} {v : Word} {s t : State} (h : a < memWords)
    (ht : memWrite a v s = .done () t) (hs : s.Inv) : t.Inv := by
  obtain ⟨u, hu, heq, hwf, hco, -, -⟩ := memWrite_done v s h
  rw [hu] at ht; cases ht
  refine ⟨?_, hwf hs.2.1, hco hs.1 hs.2.1 hs.2.2⟩
  rw [heq]; exact Memory.wf_writeWord hs.1 h v

/-- A MemoryFault taken after setting MAR is a MemoryFault state. -/
theorem memoryFaultFrom_takeFault (s : State) (x : BitVec 12) :
    MemoryFaultFrom s (takeFault .memoryFault (s.setMar x)) := rfl

/-! ## Effective addresses (R124, R127) -/

/-- Everything EA() can do: an address after at most one read, the one read off memory when every
valid line is memory's; or the MemoryFault of an indirect read out of range. -/
theorem effectiveAddress_cases (a : AddrOperand) (s : State) :
    (∃ e t n, effectiveAddress a s = .done e t ∧ n ≤ 1 ∧ Reads n s t ∧
      (eaOnMemory a s).isSome ∧ (s.coherent → eaOnMemory a s = some e)) ∨
    (∃ t, effectiveAddress a s = .stopped t ∧ MemoryFaultFrom s t ∧ t.cache = s.cache ∧
      eaOnMemory a s = none) := by
  unfold effectiveAddress eaOnMemory
  by_cases hi : a.indirect
  · simp only [hi, if_true]
    by_cases h : indexedAddress a s < memWords
    · obtain ⟨v, t, hr, hreads, -, -, hv⟩ := memRead_done s h
      refine .inl ⟨v.toNat, t, 1, ?_, le_rfl, hreads, ?_, fun hs => ?_⟩
      · rw [hr]
      · simp [h]
      · rw [if_pos h, hv hs]
    · refine .inr ⟨takeFault .memoryFault (s.setMar (BitVec.ofNat 12 (indexedAddress a s))), ?_,
        memoryFaultFrom_takeFault s _, rfl, if_neg h⟩
      rw [memRead_stopped s h]
  · simp only [hi]
    exact .inl ⟨_, s, 0, rfl, Nat.zero_le 1, Reads.zero s, rfl, fun _ => rfl⟩

/-- EA() when the effective address on memory is `e` (R124). -/
theorem effectiveAddress_done {a : AddrOperand} {s : State} {e : Nat} (hs : s.coherent)
    (h : eaOnMemory a s = some e) :
    ∃ t n, effectiveAddress a s = .done e t ∧ n ≤ 1 ∧ Reads n s t := by
  rcases effectiveAddress_cases a s with ⟨e', t, n, h1, hn, hr, -, he⟩ | ⟨t, -, -, -, hn⟩
  · rw [he hs] at h; cases h; exact ⟨t, n, h1, hn, hr⟩
  · rw [hn] at h; cases h

/-- EA() when the indirect read is out of range (R124, R128). -/
theorem effectiveAddress_stopped {a : AddrOperand} {s : State} (h : eaOnMemory a s = none) :
    ∃ t, effectiveAddress a s = .stopped t ∧ MemoryFaultFrom s t := by
  rcases effectiveAddress_cases a s with ⟨e', t, n, -, -, -, hn, -⟩ | ⟨t, h1, hf, -, -⟩
  · simp [h] at hn
  · exact ⟨t, h1, hf⟩

/-- EA_noindex() is EA() with no index register (R127). -/
theorem effectiveAddressNoIndex_eq (ind : Bool) (addr : BitVec 5) (s : State) :
    effectiveAddressNoIndex ind addr s = effectiveAddress (noIndex ind addr) s := rfl

/-! ## Inversion: what a next state after an access came from -/

/-- A computation after a read that answers a next state: the read was in range and the rest answered
it, or it is the MemoryFault of the read. -/
theorem next_of_memRead {a : Nat} {s t : State} {k : Word → State → Result}
    (h : (memRead a s).andThen k = .next t) :
    (∃ v u, a < memWords ∧ Reads 1 s u ∧ (s.coherent → v = s.mem.readWord a) ∧ k v u = .next t) ∨
    (¬ a < memWords ∧ MemoryFaultFrom s t ∧ t.cache = s.cache) := by
  by_cases ha : a < memWords
  · obtain ⟨v, u, hr, hreads, -, -, hv⟩ := memRead_done s ha
    rw [hr] at h
    exact .inl ⟨v, u, ha, hreads, hv, h⟩
  · rw [memRead_stopped s ha] at h
    cases h
    exact .inr ⟨ha, memoryFaultFrom_takeFault s _, rfl⟩

/-- A computation after EA() that answers a next state: the rest answered it after at most one read,
or it is the MemoryFault of the indirect read. -/
theorem next_of_effectiveAddress {a : AddrOperand} {s t : State} {k : Nat → State → Result}
    (h : (effectiveAddress a s).andThen k = .next t) :
    (∃ e u n, effectiveAddress a s = .done e u ∧ n ≤ 1 ∧ Reads n s u ∧ k e u = .next t) ∨
    (MemoryFaultFrom s t ∧ t.cache = s.cache) := by
  rcases effectiveAddress_cases a s with ⟨e, u, n, he, hn, hr, -, -⟩ | ⟨u, he, hf, hc, -⟩
  · rw [he] at h
    exact .inl ⟨e, u, n, he, hn, hr, h⟩
  · rw [he] at h
    cases h
    exact .inr ⟨hf, hc⟩

/-! ## The fetch (R121) -/

/-- A fetch beyond memory (R121). -/
theorem fetch_stopped {s : State} (h : ¬ s.pc.toNat < memWords) :
    fetch s = .stopped (takeFault .memoryFault (s.setMar s.pc)) := by
  unfold fetch; rw [memRead_stopped s h]; simp

/-- A fetch inside memory: one read, then IR and PC (R121). -/
theorem fetch_done {s : State} (h : s.pc.toNat < memWords) :
    ∃ w t, Reads 1 s t ∧ t.mar = s.pc ∧ t.mbr = w ∧ (s.coherent → w = s.mem.readWord s.pc.toNat) ∧
      fetch s = .done w ((t.setIr w).setPc (s.pc + 1)) := by
  obtain ⟨w, t, hr, hreads, hmar, hmbr, hw⟩ := memRead_done s h
  refine ⟨w, t, hreads, by simpa using hmar, hmbr, hw, ?_⟩
  unfold fetch; rw [hr]

end Sys2Proof.Machine
end

