-- ==== Sys2Proof/Laws/Exec.lean ====
section
/-! SUPPORT. Said once: everything exec can do when it answers a next state. A next state is either the
instruction's own effect on a state that at most two reads left, or the MemoryFault of an access, or
the one store of STR and STX. The frames and the invariants of a step follow from it. -/

namespace Sys2Proof.Machine

theorem State.getR_setR_ne {s : State} {r q : Reg} {v : Word} (h : q ≠ r) :
    (s.setR r v).getR q = s.getR q := by simp [Ne.symm h]

theorem State.getCcBit_setCcBit_ne {s : State} {i j : Fin 4} {b : Bool} (h : j ≠ i) :
    (s.setCcBit i b).getCcBit j = s.getCcBit j := by simp [Ne.symm h]

/-- A computation after a write that answers a next state: the write was in range and the rest
answered it, or it is the MemoryFault of the write. -/
theorem next_of_memWrite {a : Nat} {v : Word} {s t : State} {k : Unit → State → Result}
    (h : (memWrite a v s).andThen k = .next t) :
    (∃ u, a < memWords ∧ memWrite a v s = .done () u ∧ k () u = .next t) ∨
    (¬ a < memWords ∧ MemoryFaultFrom s t ∧ t.cache = s.cache) := by
  by_cases ha : a < memWords
  · obtain ⟨u, h1, -⟩ := memWrite_done v s ha
    rw [h1] at h
    exact .inl ⟨u, ha, h1, h⟩
  · rw [memWrite_stopped v s ha] at h
    simp only [Access.andThen_stopped, Host.Outcome.next.injEq] at h; subst h
    exact .inr ⟨ha, memoryFaultFrom_takeFault _ _, rfl⟩

/-- What an instruction's own effect, its memory accesses apart, can change: what R34 lists for it. -/
structure OwnEffect (i : Instr) (s t : State) : Prop where
  mem : t.mem = s.mem
  cache : t.cache = s.cache
  regs : ∀ q, q ∉ destRegs s.cfg i → t.getR q = s.getR q
  x : ∀ k, (∀ ind addr, i ≠ .ldx (some k) ind addr) → t.getX k = s.getX k
  cc : ∀ j, j ∉ destCc s.cfg i → t.getCcBit j = s.getCcBit j
  mfr : t.mfr = s.mfr
  halted : t.halted = s.halted ∨ i = .hlt ∨
    ∃ rx ry, i = .dvd rx ry ∧ s.getR ry = 0 ∧ s.cfg.dzPolicy = .halt
  halted_mono : s.halted = true → t.halted = true
  pc : mayWritePc i = false → t.pc = s.pc
  fixed : t.ir = s.ir ∧ t.cfg = s.cfg
  consoleIn : t.consoleIn = s.consoleIn ∨ ∃ r, i = .inp r 0 ∧ t.consoleIn = s.consoleIn.tail
  consoleOut : t.consoleOut = s.consoleOut ∨
    ∃ r, i = .out r 1 ∧ t.consoleOut = s.consoleOut ++ [s.getR r]
  access : usesAddress i = false → t.mar = s.mar ∧ t.mbr = s.mbr

/-- Everything a next state of exec can be. -/
inductive ExecEffect (i : Instr) (s t : State) : Prop where
  /-- The instruction's own effect, after at most two reads (none if it computes no address). -/
  | own (n : Nat) (u : State) (hn : n ≤ 2) (hu : usesAddress i = false → u = s)
      (reads : Reads n s u) (effect : OwnEffect i u t)
  /-- The MemoryFault of an access, after at most one read. -/
  | fault (n : Nat) (u : State) (hn : n ≤ 1) (ha : usesAddress i = true) (reads : Reads n s u)
      (hf : MemoryFaultFrom u t) (hc : t.cache = u.cache)
  /-- The store of STR or STX, after at most one read. -/
  | store (n : Nat) (u : State) (e : Nat) (v : Word) (hn : n ≤ 1) (hs : storesToMemory i = true)
      (ha : usesAddress i = true) (reads : Reads n s u) (he : e < memWords)
      (hw : memWrite e v u = .done () t)

/-- Everything exec can do. -/
theorem exec_effect {i : Instr} {s t : State} (h : exec i s = .next t) : ExecEffect i s t := by
  cases i
  case ldr r a =>
    simp only [exec, execLdr] at h
    rcases next_of_effectiveAddress h with ⟨e, u, n, h1, h2, h3, h4⟩ | ⟨h1, h2⟩
    · rcases next_of_memRead h4 with ⟨v, w, h5, h6, h7, h8⟩ | ⟨h5, h6, h7⟩
      · cases h8
        refine .own (n+1) w (by omega) (by simp [usesAddress]) (h3.trans h6) ?_
        constructor <;> simp [destRegs, mayWritePc, usesAddress]
        intro q hq; simp [Ne.symm hq]
      · exact .fault n u h2 rfl h3 h6 h7
    · exact .fault 0 s (by omega) rfl (Reads.zero s) h1 h2
  case amr r a =>
    simp only [exec, execAmr] at h
    rcases next_of_effectiveAddress h with ⟨e, u, n, h1, h2, h3, h4⟩ | ⟨h1, h2⟩
    · rcases next_of_memRead h4 with ⟨v, w, h5, h6, h7, h8⟩ | ⟨h5, h6, h7⟩
      · cases h8
        refine .own (n+1) w (by omega) (by simp [usesAddress]) (h3.trans h6) ?_
        constructor <;> simp [destRegs, mayWritePc, usesAddress, addSub, setArithFlags, destCc]
        · intro q hq; simp [Ne.symm hq]
        · intro j hj hj'; simp [Ne.symm hj, Ne.symm hj']
      · exact .fault n u h2 rfl h3 h6 h7
    · exact .fault 0 s (by omega) rfl (Reads.zero s) h1 h2
  case smr r a =>
    simp only [exec, execSmr] at h
    rcases next_of_effectiveAddress h with ⟨e, u, n, h1, h2, h3, h4⟩ | ⟨h1, h2⟩
    · rcases next_of_memRead h4 with ⟨v, w, h5, h6, h7, h8⟩ | ⟨h5, h6, h7⟩
      · cases h8
        refine .own (n+1) w (by omega) (by simp [usesAddress]) (h3.trans h6) ?_
        constructor <;> simp [destRegs, mayWritePc, usesAddress, addSub, setArithFlags, destCc]
        · intro q hq; simp [Ne.symm hq]
        · intro j hj hj'; simp [Ne.symm hj, Ne.symm hj']
      · exact .fault n u h2 rfl h3 h6 h7
    · exact .fault 0 s (by omega) rfl (Reads.zero s) h1 h2
  case ldx x ind ad =>
    simp only [exec, execLdx] at h
    rcases x with _ | k
    · cases h
    simp only [effectiveAddressNoIndex_eq] at h
    rcases next_of_effectiveAddress h with ⟨e, u, n, h1, h2, h3, h4⟩ | ⟨h1, h2⟩
    · rcases next_of_memRead h4 with ⟨v, w, h5, h6, h7, h8⟩ | ⟨h5, h6, h7⟩
      · cases h8
        refine .own (n+1) w (by omega) (by simp [usesAddress]) (h3.trans h6) ?_
        constructor <;> first
          | (intros; rfl)
          | (intro j hj; simp at hj; simp [hj])
          | simp [usesAddress]
      · exact .fault n u h2 rfl h3 h6 h7
    · exact .fault 0 s (by omega) rfl (Reads.zero s) h1 h2
  case str r a =>
    simp only [exec, execStr] at h
    rcases next_of_effectiveAddress h with ⟨e, u, n, h1, h2, h3, h4⟩ | ⟨h1, h2⟩
    · rcases next_of_memWrite h4 with ⟨w, h5, h6, h8⟩ | ⟨h5, h6, h7⟩
      · cases h8
        exact .store n u e _ h2 rfl rfl h3 h5 h6
      · exact .fault n u h2 rfl h3 h6 h7
    · exact .fault 0 s (by omega) rfl (Reads.zero s) h1 h2
  case stx x ind ad =>
    simp only [exec, execStx] at h
    rcases x with _ | k
    · cases h
    simp only [effectiveAddressNoIndex_eq] at h
    rcases next_of_effectiveAddress h with ⟨e, u, n, h1, h2, h3, h4⟩ | ⟨h1, h2⟩
    · rcases next_of_memWrite h4 with ⟨w, h5, h6, h8⟩ | ⟨h5, h6, h7⟩
      · cases h8
        exact .store n u e _ h2 rfl rfl h3 h5 h6
      · exact .fault n u h2 rfl h3 h6 h7
    · exact .fault 0 s (by omega) rfl (Reads.zero s) h1 h2
  case lda r a =>
    simp only [exec, execLda] at h
    rcases next_of_effectiveAddress h with ⟨e, u, n, h1, h2, h3, h4⟩ | ⟨h1, h2⟩
    · cases h4
      refine .own n u (by omega) (by simp [usesAddress]) h3 ?_
      constructor <;> simp [destRegs, mayWritePc, usesAddress]
      intro q hq; simp [Ne.symm hq]
    · exact .fault 0 s (by omega) rfl (Reads.zero s) h1 h2
  case jz r a | jne r a | jcc r a  =>
    simp only [exec, execJz, execJne, execJcc] at h
    rcases next_of_effectiveAddress h with ⟨e, u, n, h1, h2, h3, h4⟩ | ⟨h1, h2⟩
    · cases h4
      refine .own n u (by omega) (by simp [usesAddress]) h3 ?_
      unfold jumpIf; split <;> constructor <;> simp [destRegs, mayWritePc, usesAddress, jumpTo] <;> (intros; rfl)
    · exact .fault 0 s (by omega) rfl (Reads.zero s) h1 h2
  case jma a =>
    simp only [exec, execJma] at h
    rcases next_of_effectiveAddress h with ⟨e, u, n, h1, h2, h3, h4⟩ | ⟨h1, h2⟩
    · cases h4
      refine .own n u (by omega) (by simp [usesAddress]) h3 ?_
      constructor <;> simp [destRegs, mayWritePc, usesAddress, jumpTo] <;> (intros; rfl)
    · exact .fault 0 s (by omega) rfl (Reads.zero s) h1 h2
  case jsr a =>
    simp only [exec, execJsr] at h
    rcases next_of_effectiveAddress h with ⟨e, u, n, h1, h2, h3, h4⟩ | ⟨h1, h2⟩
    · cases h4
      refine .own n u (by omega) (by simp [usesAddress]) h3 ?_
      constructor <;> simp [destRegs, mayWritePc, usesAddress, jumpTo]
      · intro q hq; simp [Ne.symm hq]
      · intros; rfl
    · exact .fault 0 s (by omega) rfl (Reads.zero s) h1 h2
  case sob r a =>
    simp only [exec, execSob] at h
    rcases next_of_effectiveAddress h with ⟨e, u, n, h1, h2, h3, h4⟩ | ⟨h1, h2⟩
    · cases h4
      refine .own n u (by omega) (by simp [usesAddress]) h3 ?_
      unfold jumpIf; split <;> constructor <;> simp [destRegs, mayWritePc, usesAddress, jumpTo]
      all_goals first | (intro q hq; simp [Ne.symm hq]) | (intros; rfl)
    · exact .fault 0 s (by omega) rfl (Reads.zero s) h1 h2
  all_goals
    simp only [exec] at h
    refine .own 0 s (by omega) (by simp) (Reads.zero s) ?_
  case hlt => cases h; constructor <;> first | (intros; rfl) | simp [usesAddress]
  case air => cases h; constructor <;> simp [destRegs, mayWritePc, usesAddress, addSub, setArithFlags, destCc]; (intro q hq; simp [Ne.symm hq]); (intro j hj hj'; simp [Ne.symm hj, Ne.symm hj'])
  case sir => cases h; constructor <;> simp [destRegs, mayWritePc, usesAddress, addSub, setArithFlags, destCc]; (intro q hq; simp [Ne.symm hq]); (intro j hj hj'; simp [Ne.symm hj, Ne.symm hj'])
  case rfs => cases h; constructor <;> simp [destRegs, mayWritePc, usesAddress, jumpTo]; (intro q hq; simp [Ne.symm hq]); (intros; rfl)
  case src | rrc | and | orr | not => cases h; constructor <;> simp [destRegs, mayWritePc, usesAddress]; (intro q hq; simp [Ne.symm hq])
  case trr => cases h; constructor <;> simp [destRegs, mayWritePc, usesAddress, setEqual, destCc]; (intro j hj; simp [Ne.symm hj])
  case out =>
    simp only [execOut] at h
    split at h
    · next hd => cases h; constructor <;> simp [destRegs, mayWritePc, usesAddress, consoleEmit, hd, consoleOutId] <;> (intros; rfl)
    · cases h
  case inp =>
    simp only [execInp, consolePoll] at h
    split at h
    · next hd =>
      subst hd
      rcases hc : s.consoleIn with _ | ⟨_ | n, l⟩ <;> simp [hc] at h <;> subst h <;> constructor <;> simp [destRegs, mayWritePc, usesAddress, hc, consoleInId]
      all_goals first | (intros; rfl) | (intro q hq hq'; exact absurd hq'.symm hq)
    · cases h
  case mlt rx ry =>
    simp only [execMlt] at h
    split at h
    · cases h; constructor <;> simp [destRegs, mayWritePc, usesAddress, State.setPair, pairLow]; (intro q hq hq'; simp [Ne.symm hq, Ne.symm hq'])
    · cases h
  case dvd rx ry =>
    simp only [execDvd, divZeroPolicy] at h
    have hcf : (setDivZero true s).cfg = s.cfg := rfl
    rw [hcf] at h
    split at h
    · split at h
      · next h0 =>
        cases hd : s.cfg.dzPolicy <;> simp [hd] at h <;> subst h <;> constructor <;> simp [destRegs, mayWritePc, usesAddress, destCc, setDivZero, hd, h0]
        all_goals first | (intros; rfl) | (intro q hq hq'; exact absurd hq'.symm hq) | (intro q hq; exact State.getCcBit_setCcBit_ne hq)
      · cases h; constructor <;> simp [destRegs, mayWritePc, usesAddress, State.setPair, pairLow, setDivZero, destCc]; (intro q hq hq'; simp [Ne.symm hq, Ne.symm hq']); (intro j hj; simp [Ne.symm hj])
    · cases h

end Sys2Proof.Machine
end

