-- ==== Sys2Proof/Laws/Fields.lean ====
section
/-! SUPPORT. The fields of a packed word (spec/30_encoding.md R91 to R97), and finding a mnemonic by
its opcode number (R98). -/

namespace Sys2Proof

/-! ## Extraction from a concatenation -/

theorem extractLsb'_append_low {n k : Nat} (x : BitVec n) (y : BitVec k) {i len : Nat}
    (h : i + len ≤ k) : (x ++ y).extractLsb' i len = y.extractLsb' i len := by
  apply BitVec.eq_of_getLsbD_eq
  intro j hj
  simp only [BitVec.getLsbD_extractLsb', BitVec.getLsbD_append]
  rw [if_pos (by omega)]

theorem extractLsb'_append_high {n k : Nat} (x : BitVec n) (y : BitVec k) {i len : Nat}
    (h : k ≤ i) : (x ++ y).extractLsb' i len = x.extractLsb' (i - k) len := by
  apply BitVec.eq_of_getLsbD_eq
  intro j hj
  simp only [BitVec.getLsbD_extractLsb', BitVec.getLsbD_append]
  rw [if_neg (by omega), Nat.sub_add_comm h]

theorem extractLsb'_whole {n : Nat} (x : BitVec n) : x.extractLsb' 0 n = x := by
  apply BitVec.eq_of_getLsbD_eq
  intro j hj
  simp [hj]

/-! ## The fields of the general format (R91) -/

section general
variable (op : BitVec 6) (r ix : BitVec 2) (i : Bool) (addr : BitVec 5)

theorem opField_packGeneral : opField (packGeneral op r ix i addr) = op := by
  show (op ++ r ++ ix ++ BitVec.ofBool i ++ addr).extractLsb' 10 6 = op
  rw [extractLsb'_append_high _ _ (by decide), extractLsb'_append_high _ _ (by decide),
    extractLsb'_append_high _ _ (by decide), extractLsb'_append_high _ _ (by decide)]
  exact extractLsb'_whole op

theorem rBits_packGeneral : (packGeneral op r ix i addr).extractLsb' 8 2 = r := by
  show (op ++ r ++ ix ++ BitVec.ofBool i ++ addr).extractLsb' 8 2 = r
  rw [extractLsb'_append_high _ _ (by decide), extractLsb'_append_high _ _ (by decide),
    extractLsb'_append_high _ _ (by decide), extractLsb'_append_low _ _ (by decide)]
  exact extractLsb'_whole r

theorem ixBits_packGeneral : (packGeneral op r ix i addr).extractLsb' 6 2 = ix := by
  show (op ++ r ++ ix ++ BitVec.ofBool i ++ addr).extractLsb' 6 2 = ix
  rw [extractLsb'_append_high _ _ (by decide), extractLsb'_append_high _ _ (by decide),
    extractLsb'_append_low _ _ (by decide)]
  exact extractLsb'_whole ix

theorem indirectField_packGeneral : indirectField (packGeneral op r ix i addr) = i := by
  show (op ++ r ++ ix ++ BitVec.ofBool i ++ addr).getLsbD 5 = i
  rw [BitVec.getLsbD_append, if_neg (by decide), BitVec.getLsbD_append, if_pos (by decide)]
  cases i <;> rfl

theorem addrField_packGeneral : addrField (packGeneral op r ix i addr) = addr := by
  show (op ++ r ++ ix ++ BitVec.ofBool i ++ addr).extractLsb' 0 5 = addr
  rw [extractLsb'_append_low _ _ (by decide)]
  exact extractLsb'_whole addr

end general

/-! ## The immediate format (R94) -/

section immediate
variable (op : BitVec 6) (r : BitVec 2) (imm : BitVec 8)

theorem opField_packImm : opField (packImm op r imm) = op := by
  show (op ++ r ++ imm).extractLsb' 10 6 = op
  rw [extractLsb'_append_high _ _ (by decide), extractLsb'_append_high _ _ (by decide)]
  exact extractLsb'_whole op

theorem rBits_packImm : (packImm op r imm).extractLsb' 8 2 = r := by
  show (op ++ r ++ imm).extractLsb' 8 2 = r
  rw [extractLsb'_append_high _ _ (by decide), extractLsb'_append_low _ _ (by decide)]
  exact extractLsb'_whole r

theorem immField_packImm : immField (packImm op r imm) = imm := by
  show (op ++ r ++ imm).extractLsb' 0 8 = imm
  rw [extractLsb'_append_low _ _ (by decide)]
  exact extractLsb'_whole imm

end immediate

/-! ## The shift/rotate format (R92) -/

section shift
variable (op : BitVec 6) (r : BitVec 2) (al lr : Bool) (count : BitVec 4)

theorem opField_packShift : opField (packShift op r al lr count) = op := by
  show (op ++ r ++ BitVec.ofBool al ++ BitVec.ofBool lr ++ 0#2 ++ count).extractLsb' 10 6 = op
  rw [extractLsb'_append_high _ _ (by decide), extractLsb'_append_high _ _ (by decide),
    extractLsb'_append_high _ _ (by decide), extractLsb'_append_high _ _ (by decide),
    extractLsb'_append_high _ _ (by decide)]
  exact extractLsb'_whole op

theorem rBits_packShift : (packShift op r al lr count).extractLsb' 8 2 = r := by
  show (op ++ r ++ BitVec.ofBool al ++ BitVec.ofBool lr ++ 0#2 ++ count).extractLsb' 8 2 = r
  rw [extractLsb'_append_high _ _ (by decide), extractLsb'_append_high _ _ (by decide),
    extractLsb'_append_high _ _ (by decide), extractLsb'_append_high _ _ (by decide),
    extractLsb'_append_low _ _ (by decide)]
  exact extractLsb'_whole r

theorem alField_packShift : alField (packShift op r al lr count) = al := by
  show (op ++ r ++ BitVec.ofBool al ++ BitVec.ofBool lr ++ 0#2 ++ count).getLsbD 7 = al
  rw [BitVec.getLsbD_append, if_neg (by decide), BitVec.getLsbD_append, if_neg (by decide),
    BitVec.getLsbD_append, if_neg (by decide), BitVec.getLsbD_append, if_pos (by decide)]
  cases al <;> rfl

theorem lrField_packShift : lrField (packShift op r al lr count) = lr := by
  show (op ++ r ++ BitVec.ofBool al ++ BitVec.ofBool lr ++ 0#2 ++ count).getLsbD 6 = lr
  rw [BitVec.getLsbD_append, if_neg (by decide), BitVec.getLsbD_append, if_neg (by decide),
    BitVec.getLsbD_append, if_pos (by decide)]
  cases lr <;> rfl

theorem countField_packShift : countField (packShift op r al lr count) = count := by
  show (op ++ r ++ BitVec.ofBool al ++ BitVec.ofBool lr ++ 0#2 ++ count).extractLsb' 0 4 = count
  rw [extractLsb'_append_low _ _ (by decide)]
  exact extractLsb'_whole count

end shift

/-! ## Register numbers and selectors -/

theorem toFin_regBits (r : Fin 4) : ((regBits r).toFin : Fin 4) = r := rfl

theorem xregOfSelector_selectorBits (x : Option XReg) :
    xregOfSelector (selectorBits x) = x := by
  rcases x with _ | x
  · rfl
  · cases x <;> rfl

/-! ## Opcode numbers (R98) -/

theorem Mnemonic.mem_all (k : Mnemonic) : k ∈ Mnemonic.all := by cases k <;> decide

/-- Under a legal OPMAP a number is one mnemonic's only. -/
theorem Opmap.opcode_injective {m : Opmap} (h : m.wf) {k j : Mnemonic}
    (e : m.opcode k = m.opcode j) : k = j :=
  List.inj_on_of_nodup_map h (Mnemonic.mem_all k) (Mnemonic.mem_all j) e

/-- A mnemonic found for a number has that number. -/
theorem Opmap.opcode_of_mnemonic {m : Opmap} {op : BitVec 6} {k : Mnemonic}
    (h : m.mnemonic op = some k) : m.opcode k = op := by
  simpa using List.find?_some h

/-- Under a legal OPMAP a mnemonic is found by its number. -/
theorem Opmap.mnemonic_opcode {m : Opmap} (h : m.wf) (k : Mnemonic) :
    m.mnemonic (m.opcode k) = some k := by
  rcases hf : m.mnemonic (m.opcode k) with _ | j
  · exact absurd (beq_self_eq_true _) (List.find?_eq_none.1 hf k (Mnemonic.mem_all k))
  · rw [Opmap.opcode_injective h (Opmap.opcode_of_mnemonic hf)]

end Sys2Proof
end

