-- ==== Sys2Proof/Laws/PerInstr.lean ====
section
/-! SUPPORT. Per-instruction families: `OpcodeField`, that an instruction's word carries its opcode
number in bits 15 to 10 (spec/30_encoding.md R91, R92, R98). -/

namespace Sys2Proof.Laws.OpcodeField

open Sys2Proof

/-- The word of the instruction carries the opcode number of its mnemonic, under every OPMAP. -/
def Statement (i : Instr) : Prop :=
  ∀ m : Opmap, opField (encode m i) = m.opcode i.mnemonic

theorem hlt : Statement (.hlt) :=
  fun _ => opField_packGeneral ..

theorem ldr (r : Reg) (a : AddrOperand) : Statement (.ldr r a) :=
  fun _ => opField_packGeneral ..

theorem str (r : Reg) (a : AddrOperand) : Statement (.str r a) :=
  fun _ => opField_packGeneral ..

theorem lda (r : Reg) (a : AddrOperand) : Statement (.lda r a) :=
  fun _ => opField_packGeneral ..

theorem amr (r : Reg) (a : AddrOperand) : Statement (.amr r a) :=
  fun _ => opField_packGeneral ..

theorem smr (r : Reg) (a : AddrOperand) : Statement (.smr r a) :=
  fun _ => opField_packGeneral ..

theorem air (r : Reg) (immed : BitVec 8) : Statement (.air r immed) :=
  fun _ => opField_packImm ..

theorem sir (r : Reg) (immed : BitVec 8) : Statement (.sir r immed) :=
  fun _ => opField_packImm ..

theorem jz (r : Reg) (a : AddrOperand) : Statement (.jz r a) :=
  fun _ => opField_packGeneral ..

theorem jne (r : Reg) (a : AddrOperand) : Statement (.jne r a) :=
  fun _ => opField_packGeneral ..

theorem jcc (i : Fin 4) (a : AddrOperand) : Statement (.jcc i a) :=
  fun _ => opField_packGeneral ..

theorem jma (a : AddrOperand) : Statement (.jma a) :=
  fun _ => opField_packGeneral ..

theorem jsr (a : AddrOperand) : Statement (.jsr a) :=
  fun _ => opField_packGeneral ..

theorem rfs (immed : BitVec 5) : Statement (.rfs immed) :=
  fun _ => opField_packGeneral ..

theorem sob (r : Reg) (a : AddrOperand) : Statement (.sob r a) :=
  fun _ => opField_packGeneral ..

theorem src (r : Reg) (al lr : Bool) (count : BitVec 4) : Statement (.src r al lr count) :=
  fun _ => opField_packShift ..

theorem rrc (r : Reg) (al lr : Bool) (count : BitVec 4) : Statement (.rrc r al lr count) :=
  fun _ => opField_packShift ..

theorem ldx (x : Option XReg) (indirect : Bool) (addr : BitVec 5) : Statement (.ldx x indirect addr) :=
  fun _ => opField_packGeneral ..

theorem stx (x : Option XReg) (indirect : Bool) (addr : BitVec 5) : Statement (.stx x indirect addr) :=
  fun _ => opField_packGeneral ..

theorem inp (r : Reg) (devid : BitVec 5) : Statement (.inp r devid) :=
  fun _ => opField_packGeneral ..

theorem out (r : Reg) (devid : BitVec 5) : Statement (.out r devid) :=
  fun _ => opField_packGeneral ..

theorem mlt (rx ry : Reg) : Statement (.mlt rx ry) :=
  fun _ => opField_packGeneral ..

theorem dvd (rx ry : Reg) : Statement (.dvd rx ry) :=
  fun _ => opField_packGeneral ..

theorem trr (rx ry : Reg) : Statement (.trr rx ry) :=
  fun _ => opField_packGeneral ..

theorem and (rx ry : Reg) : Statement (.and rx ry) :=
  fun _ => opField_packGeneral ..

theorem orr (rx ry : Reg) : Statement (.orr rx ry) :=
  fun _ => opField_packGeneral ..

theorem not (rx : Reg) : Statement (.not rx) :=
  fun _ => opField_packGeneral ..

end Sys2Proof.Laws.OpcodeField
end

