-- ==== Sys2Proof/Laws/Step.lean ====
section
/-! SUPPORT. What a step can do, said once (spec/40_cycle_ea_halt.md R120 to R122). -/

namespace Sys2Proof.Machine

/-- The state a fetch of the word `w` leaves, from the state `u` its read left (R121). -/
abbrev fetched (s u : State) (w : Word) : State := (u.setIr w).setPc (s.pc + 1)

/-- A step is the MemoryFault of a fetch beyond memory, or one read and then decode-and-execute
(R120). -/
theorem step_cases (s : State) :
    (¬ s.pc.toNat < memWords ∧ step s = .next (takeFault .memoryFault (s.setMar s.pc))) ∨
    (s.pc.toNat < memWords ∧ ∃ w u, Reads 1 s u ∧ u.mar = s.pc ∧ u.mbr = w ∧
      (s.coherent → w = s.mem.readWord s.pc.toNat) ∧ step s = decodeExecute (fetched s u w)) := by
  by_cases h : s.pc.toNat < memWords
  · obtain ⟨w, u, hr, hmar, hmbr, hw, hf⟩ := fetch_done h
    refine .inr ⟨h, w, u, hr, hmar, hmbr, hw, ?_⟩
    unfold step cycle; rw [hf]; rfl
  · exact .inl ⟨h, by simp [step, cycle, fetch_stopped h]⟩

/-- Decode-and-execute takes IllegalOpcode, or runs the instruction IR decodes to (R122). -/
theorem decodeExecute_cases (s : State) :
    (∃ op, decode s.cfg.opmap s.ir = .illegalOpcode op ∧
      decodeExecute s = .next (takeFault .illegalOpcode s)) ∨
    (∃ i, decode s.cfg.opmap s.ir = .ok i ∧ decodeExecute s = exec i s) := by
  unfold decodeExecute
  cases h : decode s.cfg.opmap s.ir with
  | ok i => exact .inr ⟨i, rfl, rfl⟩
  | illegalOpcode op => exact .inl ⟨op, rfl, rfl⟩

end Sys2Proof.Machine
end

