-- ==== Sys2Proof/Tests/Slice0.lean ====
section
/-! SUPPORT. Tests of the model: ill-formed terms, words written out from the encodings, vectors of
spec/95_test_vectors.md (named by their ids; every expected value is the spec's), and a witness of the
hypotheses of each statement that has any. -/

namespace Sys2Proof.Tests

open Sys2Proof.Machine

set_option maxRecDepth 100000

/-! ## Helpers -/

/-- The power-on state with words placed in memory and PC at `pc` (spec/95_test_vectors.md, start
state). -/
def start (pc : BitVec 12) (ws : List (Nat × Word)) : State :=
  { State.reset with pc := pc, mem := ws.foldl (fun m p => m.writeWord p.1 p.2) [] }

/-- What is shown of the next state, if there is one. -/
def after {α : Type} (o : Result) (f : State → α) : Option α :=
  match o with
  | .next t => some (f t)
  | .fault _ => none
  | .refused _ => none

/-- The refusal, if there is one. -/
def refusal (o : Result) : Option Refusal :=
  match o with
  | .next _ => none
  | .fault _ => none
  | .refused q => some q

/-! ## Ill-formed terms, one for each check of WellFormed -/

theorem test_wf_ldx_names_an_index_register :
    (Instr.ldx none false 20).wf = false ∧ (Instr.ldx (some .x1) false 20).wf = true := by decide

theorem test_wf_stx_names_an_index_register :
    (Instr.stx none false 20).wf = false ∧ (Instr.stx (some .x3) false 20).wf = true := by decide

theorem test_wf_mlt_even :
    (Instr.mlt 1 0).wf = false ∧ (Instr.mlt 0 3).wf = false ∧ (Instr.mlt 2 0).wf = true := by decide

theorem test_wf_dvd_even :
    (Instr.dvd 3 0).wf = false ∧ (Instr.dvd 0 1).wf = false ∧ (Instr.dvd 0 2).wf = true := by decide

theorem test_wf_devices :
    (Instr.inp 0 1).wf = false ∧ (Instr.inp 0 0).wf = true ∧
    (Instr.out 0 0).wf = false ∧ (Instr.out 0 2).wf = false ∧ (Instr.out 0 1).wf = true := by decide

/-- OPMAP: two mnemonics on one number, or a mnemonic on HLT's 0; CC_INDEX, CC_PACK and the MFR bits:
two of one. -/
theorem test_wf_config :
    defaultConfig.wf ∧
    ¬ ({ defaultOpmap with orr := 0o73 } : Opmap).wf ∧
    ¬ ({ defaultOpmap with ldr := 0 } : Opmap).wf ∧
    ¬ ({ defaultCcIndex with divzero := 0 } : CcIndex).wf ∧
    ¬ ({ defaultConfig with ccPack := #v[0, 1, 2, 2] } : Config).wf ∧
    ¬ ({ defaultConfig with mfrMem := 2 } : Config).wf := by decide

/-- Memory: cells out of order, a zero byte listed, a cell beyond 2048 words. -/
theorem test_wf_memory :
    Memory.wf [(0, 1), (4095, 2)] ∧ ¬ Memory.wf [(2, 1), (1, 1)] ∧ ¬ Memory.wf [(1, 0)] ∧
    ¬ Memory.wf [(4096, 1)] := by decide

/-! ## Decoding and encoding: words from spec/95_test_vectors.md, R91 to R98 -/

/-- A word decodes to the instruction and the instruction encodes to the word. -/
abbrev both (w : Word) (i : Instr) : Prop :=
  decode defaultOpmap w = .ok i ∧ encode defaultOpmap i = w

/-- T1, E5, S5, E2, LX2, LX5. -/
theorem test_decode_load_store :
    both 0x0000 .hlt ∧ both 0x05C7 (.ldr 1 ⟨some .x3, false, 7⟩) ∧
    both 0x0834 (.str 0 ⟨none, true, 20⟩) ∧ both 0x0CAA (.lda 0 ⟨some .x2, true, 10⟩) ∧
    both 0x84F4 (.ldx (some .x3) true 20) ∧ both 0x8869 (.stx (some .x1) true 9) := by decide

/-- A4, A8, A10, A17. -/
theorem test_decode_arithmetic :
    both 0x1240 (.amr 2 ⟨some .x1, false, 0⟩) ∧ both 0x1729 (.smr 3 ⟨none, true, 9⟩) ∧
    both 0x18FF (.air 0 0xFF) ∧ both 0x1C80 (.sir 0 0x80) := by decide

/-- M5, Q12, B1, B7, B9, B10. -/
theorem test_decode_register :
    both 0xE200 (.mlt 2 0) ∧ both 0xE440 (.dvd 0 1) ∧ both 0xE980 (.trr 1 2) ∧
    both 0xEF00 (.and 3 0) ∧ both 0xF1C0 (.orr 1 3) ∧ both 0xF700 (.not 3) := by decide

/-- J5, J6, J11, J15, J19, J21, J31. -/
theorem test_decode_transfer :
    both 0x2060 (.jz 0 ⟨some .x1, true, 0⟩) ∧ both 0x2606 (.jne 2 ⟨none, false, 6⟩) ∧
    both 0x2B0C (.jcc 3 ⟨none, false, 12⟩) ∧ both 0x2C85 (.jma ⟨some .x2, false, 5⟩) ∧
    both 0x30E1 (.jsr ⟨some .x3, true, 1⟩) ∧ both 0x3407 (.rfs 7) ∧
    both 0x3AE0 (.sob 2 ⟨some .x3, true, 0⟩) := by decide

/-- H2, H7, O1, O8, I3, I11. -/
theorem test_decode_shift_and_io :
    both 0x658F (.src 1 true false 15) ∧ both 0x6741 (.src 3 false true 1) ∧
    both 0x68C4 (.rrc 0 true true 4) ∧ both 0x6B48 (.rrc 3 false true 8) ∧
    both 0xC600 (.inp 2 0) ∧ both 0xC802 (.out 0 2) := by decide

/-- T2, LX3, M11, B12, J17, J23, H15, I7: bits an instruction ignores; T7, T8: illegal opcodes. -/
theorem test_decode_ignored_and_illegal :
    decode defaultOpmap 0x03FF = .ok .hlt ∧
    decode defaultOpmap 0x8745 = .ok (.ldx (some .x1) false 5) ∧
    decode defaultOpmap 0xE0BF = .ok (.mlt 0 2) ∧ decode defaultOpmap 0xF5FF = .ok (.not 1) ∧
    decode defaultOpmap 0x2F0A = .ok (.jma ⟨none, false, 10⟩) ∧
    decode defaultOpmap 0x37E7 = .ok (.rfs 7) ∧
    decode defaultOpmap 0x64F3 = .ok (.src 0 true true 3) ∧
    decode defaultOpmap 0xC7E0 = .ok (.inp 3 0) ∧
    decode defaultOpmap 0x3C00 = .illegalOpcode 0o17 ∧
    decode defaultOpmap 0xFFFF = .illegalOpcode 0o77 := by decide

/-- The words of the opcode table, by their bits: LDA 0,2,10 and AIR 0,1. -/
theorem test_decodeTableWord :
    decodeTableWord 16 0x0C8A = some (.lda 0 ⟨some .x2, false, 10⟩) ∧
    decodeTableWord 16 0x1801 = some (.air 0 1) ∧ decodeTableWord 16 0xFC00 = none := by decide

/-! ## The cycle -/

/-- T2. -/
theorem test_hlt :
    after (step (start 6 [(6, 0x03FF)])) (fun t => (t.pc, t.ir, t.halted, t.mfr))
      = some (7, 0x03FF, true, 0) := by decide

/-- T4, after T3. -/
theorem test_fetch_fault :
    after (step (start 2048 [])) (fun t => (t.pc, t.ir, t.mar, t.mbr, t.mfr, t.halted))
      = some (2048, 0, 2048, 0, 0b1000, true) ∧
    after (step (start 2048 [])) (fun t => t.cache) = some Cache.empty := by decide

/-- T8: MFR bits accumulate. -/
theorem test_illegal_opcode :
    after (step { start 6 [(6, 0xFFFF)] with mfr := 0b1000 })
      (fun t => (t.pc, t.ir, t.mfr, t.halted)) = some (7, 0xFFFF, 0b1100, true) := by decide

/-- T6: a step on a halted CPU executes. -/
theorem test_step_when_halted :
    after (step { start 6 [(6, 0x1801)] with halted := true })
      (fun t => (t.getR 0, t.pc, t.halted)) = some (1, 7, true) := by decide

/-- The host's two hooks: LDA 0,2,10 runs as the first instruction after reset. -/
theorem test_withFetchWord :
    after (step (State.reset.withFetchWord 16 0x0C8A)) (fun t => (t.getR 0, t.pc, t.ir))
      = some (10, 1, 0x0C8A) := by decide

/-! ## Load and store -/

/-- E10: indexing before indirection. -/
theorem test_ldr :
    after (step ((start 6 [(6, 0x0762), (102, 0x01F4), (500, 0xCAFE)]).setX .x1 0x0064))
      (fun t => (t.getR 3, t.mar, t.mbr, t.cache.hits, t.cache.misses))
      = some (0xCAFE, 500, 0xCAFE, 0, 3) := by decide

/-- E12: an EA of 4101 faults; it does not wrap. -/
theorem test_ldr_fault :
    after (step (((start 6 [(6, 0x0445), (5, 0x7777)]).setX .x1 0x1000).setR 0 0x1111))
      (fun t => (t.getR 0, t.mar, t.mbr, t.mfr, t.halted, t.pc))
      = some (0x1111, 5, 0x0445, 0b1000, true, 7) := by decide

/-- S2: the instruction overwrites itself, a write hit. -/
theorem test_str :
    after (step ((start 6 [(6, 0x0A06)]).setR 2 0xABCD))
      (fun t => (t.mem.readWord 6, t.ir, t.cache.hits, t.cache.misses))
      = some (0xABCD, 0x0A06, 1, 1) := by decide

/-- S4. -/
theorem test_str_fault :
    after (step (((start 6 [(6, 0x0881)]).setX .x2 0x07FF).setR 0 0x0F0F))
      (fun t => (t.mem, t.mar, t.mbr, t.mfr, t.halted))
      = some ((start 6 [(6, 0x0881)]).mem, 2048, 0x0881, 0b1000, true) := by decide

/-- E2. -/
theorem test_lda_indirect :
    after (step ((start 6 [(6, 0x0CAA), (13, 0x002A)]).setX .x2 3)) (fun t => (t.getR 0, t.mar))
      = some (0x002A, 13) := by decide

/-- E3: an EA of 65536 is truncated, and nothing faults. -/
theorem test_lda_wraps :
    after (step (((start 6 [(6, 0x0C41)]).setX .x1 0xFFFF).setR 0 0x1234))
      (fun t => (t.getR 0, t.mfr, t.halted)) = some (0, 0, false) := by decide

/-- LX1: the address is not indexed. -/
theorem test_ldx :
    after (step ((start 6 [(6, 0x8494), (20, 0x0018), (120, 0x004D)]).setX .x2 0x0064))
      (fun t => (t.getX .x1, t.getX .x2, t.getX .x3)) = some (0, 0x0018, 0) := by decide

/-- LX5. -/
theorem test_stx :
    after (step ((start 6 [(6, 0x8869), (9, 0x07FF)]).setX .x1 0xFFFF))
      (fun t => (t.mem.readWord 2047, t.getX .x1, t.cache.misses)) = some (0xFFFF, 0xFFFF, 3) := by
  decide

/-- LX6, LX7, M9, M10, Q11, Q12, I6, I10, I11: the refused encodings. -/
theorem test_refused :
    refusal (step (start 6 [(6, 0x8414)])) = some .indexSelectorZero ∧
    refusal (step (start 6 [(6, 0x8814)])) = some .indexSelectorZero ∧
    refusal (step (start 6 [(6, 0xE100)])) = some .oddRegister ∧
    refusal (step (start 6 [(6, 0xE0C0)])) = some .oddRegister ∧
    refusal (step (start 6 [(6, 0xE700)])) = some .oddRegister ∧
    refusal (step (start 6 [(6, 0xE440)])) = some .oddRegister ∧
    refusal (step (start 6 [(6, 0xC401)])) = some .unknownDevice ∧
    refusal (step (start 6 [(6, 0xC800)])) = some .unknownDevice ∧
    refusal (step (start 6 [(6, 0xC802)])) = some .unknownDevice := by decide

/-! ## Arithmetic -/

/-- A2 and V2. -/
theorem test_amr_overflow :
    let s := { (start 6 [(6, 0x110E), (14, 1)]).setR 1 0x7FFF with cc := 0b1100 }
    after (step s) (fun t => (t.getR 1, t.cc)) = some (0x8000, 0b1101) ∧
    after (step { s with cfg := { s.cfg with arith := .unsigned } }) (fun t => (t.getR 1, t.cc))
      = some (0x8000, 0b1100) := by decide

/-- A3. -/
theorem test_amr_underflow :
    after (step ((start 6 [(6, 0x110E), (14, 0x8000)]).setR 1 0x8000)) (fun t => (t.getR 1, t.cc))
      = some (0, 0b0010) := by decide

/-- A6: register minus memory. -/
theorem test_smr :
    after (step (start 6 [(6, 0x1409), (9, 0x8000)])) (fun t => (t.getR 0, t.cc))
      = some (0x8000, 0b0001) := by decide

/-- A8: a fault leaves the register and the flags. -/
theorem test_smr_fault :
    after (step { (start 6 [(6, 0x1729), (9, 0x0BB8)]).setR 3 0x0064 with cc := 0b0001 })
      (fun t => (t.getR 3, t.cc, t.mar, t.mbr, t.mfr)) = some (0x0064, 1, 3000, 0x0BB8, 0b1000) := by
  decide

/-- A10 and V5: the immediate is sign-extended. -/
theorem test_air_negative :
    let s := (start 6 [(6, 0x18FF)]).setR 0 5
    after (step s) (fun t => (t.getR 0, t.cc)) = some (4, 0) ∧
    after (step { s with cfg := { s.cfg with arith := .unsigned } }) (fun t => (t.getR 0, t.cc))
      = some (4, 0b0001) := by decide

/-- A13 and V10: an add of 0 rewrites the two flags. -/
theorem test_air_flags :
    after (step { (start 6 [(6, 0x1900)]).setR 1 0x4444 with cc := 0b1111 })
      (fun t => (t.getR 1, t.cc)) = some (0x4444, 0b1100) ∧
    after (step { (start 6 [(6, 0x1A01)]).setR 2 0x7FFF with
        cfg := { defaultConfig with ccIndex := ⟨3, 2, 1, 0⟩ } })
      (fun t => t.cc) = some 0b1000 := by decide

/-- A17. -/
theorem test_sir :
    after (step (start 6 [(6, 0x1C80)])) (fun t => (t.getR 0, t.cc)) = some (0x0080, 0) := by decide

/-- A18. -/
theorem test_sir_overflow :
    after (step ((start 6 [(6, 0x1C80)]).setR 0 0x7FFF)) (fun t => (t.getR 0, t.cc))
      = some (0x807F, 0b0001) := by decide

/-! ## Register to register -/

/-- M4. -/
theorem test_mlt_signed :
    after (step (((start 6 [(6, 0xE080)]).setR 0 0x8000).setR 2 0x7FFF))
      (fun t => (t.getR 0, t.getR 1, t.getR 2, t.cc)) = some (0xC000, 0x8000, 0x7FFF, 0) := by decide

/-- M6: both operands are read before either write. -/
theorem test_mlt_self :
    after (step (((start 6 [(6, 0xE000)]).setR 0 0x0100).setR 1 0x7777))
      (fun t => (t.getR 0, t.getR 1)) = some (1, 0) := by decide

/-- Q2 and Q6: toward zero, the remainder with the dividend's sign; the quotient truncated. -/
theorem test_dvd :
    after (step (((start 6 [(6, 0xE480)]).setR 0 0xFFF9).setR 2 2)) (fun t => (t.getR 0, t.getR 1))
      = some (0xFFFD, 0xFFFF) ∧
    after (step (((start 6 [(6, 0xE480)]).setR 0 0x8000).setR 2 0xFFFF))
      (fun t => (t.getR 0, t.getR 1, t.cc)) = some (0x8000, 0, 0) := by decide

/-- Q7 and V1. -/
theorem test_dvd_by_zero :
    let s := { ((start 6 [(6, 0xE480)]).setR 0 0x0064).setR 1 0x9999 with cc := 0b1011 }
    after (step s) (fun t => (t.getR 0, t.getR 1, t.cc, t.mfr, t.halted))
      = some (0x0064, 0x9999, 0b1111, 0, false) ∧
    after (step { s with cfg := { s.cfg with dzPolicy := .halt } })
      (fun t => (t.getR 0, t.getR 1, t.cc, t.mfr, t.halted))
      = some (0x0064, 0x9999, 0b1111, 0, true) := by decide

/-- B2 and B3. -/
theorem test_trr :
    after (step { ((start 6 [(6, 0xE980)]).setR 1 0x1234).setR 2 0x1235 with cc := 0b1111 })
      (fun t => t.cc) = some 0b0111 ∧
    after (step { (start 6 [(6, 0xEBC0)]).setR 3 0xABCD with cc := 0b0101 })
      (fun t => t.cc) = some 0b1101 := by decide

/-- B5. -/
theorem test_and :
    after (step (((start 6 [(6, 0xEC40)]).setR 0 0x0F0F).setR 1 0x00FF))
      (fun t => (t.getR 0, t.getR 1)) = some (0x000F, 0x00FF) := by decide

/-- B9. -/
theorem test_orr :
    after (step { ((start 6 [(6, 0xF1C0)]).setR 1 0x8000).setR 3 0x0001 with cc := 0b1010 })
      (fun t => (t.getR 1, t.cc)) = some (0x8001, 0b1010) := by decide

/-- B12. -/
theorem test_not :
    after (step (((start 6 [(6, 0xF5FF)]).setR 1 0xAAAA).setR 3 0x1111))
      (fun t => (t.getR 1, t.getR 3)) = some (0x5555, 0x1111) := by decide

/-! ## Transfer of control -/

/-- J3 and J4: the indirect read is made whether or not the jump is taken. -/
theorem test_jz :
    after (step ((start 6 [(6, 0x2134), (20, 0x0900)]).setR 1 1)) (fun t => (t.pc, t.cache.misses))
      = some (7, 2) ∧
    after (step (start 6 [(6, 0x2134), (20, 0x0900)])) (fun t => (t.pc, t.mfr)) = some (2304, 0) := by
  decide

/-- J5. -/
theorem test_jz_fault :
    after (step (((start 6 [(6, 0x2060)]).setR 0 7).setX .x1 0x0BB8))
      (fun t => (t.pc, t.mar, t.mbr, t.mfr, t.halted))
      = some (7, 3000, 0x2060, 0b1000, true) := by decide

/-- J6 and J7. -/
theorem test_jne :
    after (step ((start 6 [(6, 0x2606)]).setR 2 0x8000)) (fun t => t.pc) = some 6 ∧
    after (step (start 6 [(6, 0x2606)])) (fun t => t.pc) = some 7 := by decide

/-- J11 and J12. -/
theorem test_jcc :
    after (step { start 6 [(6, 0x2B0C)] with cc := 0b1000 }) (fun t => (t.pc, t.cc))
      = some (12, 0b1000) ∧
    after (step { start 6 [(6, 0x2B0C)] with cc := 0b0111 }) (fun t => (t.pc, t.cc))
      = some (7, 0b0111) := by decide

/-- J15: PC keeps 12 bits; no fault. -/
theorem test_jma :
    after (step ((start 6 [(6, 0x2C85)]).setX .x2 0x1000)) (fun t => (t.pc, t.mfr))
      = some (5, 0) := by decide

/-- J18 and V8. -/
theorem test_jsr :
    let s := (start 11 [(11, 0x3010)]).setR 3 0x5555
    after (step s) (fun t => (t.getR 3, t.pc)) = some (12, 16) ∧
    after (step { s with cfg := { s.cfg with link := 1 } })
      (fun t => (t.getR 1, t.getR 3, t.pc)) = some (12, 0x5555, 16) := by decide

/-- J20b: the fault comes before the link is written. -/
theorem test_jsr_fault :
    after (step (((start 11 [(11, 0x3060)]).setX .x1 0x0800).setR 3 0x5555))
      (fun t => (t.getR 3, t.pc, t.mar, t.mfr)) = some (0x5555, 12, 2048, 0b1000) := by decide

/-- J22. -/
theorem test_rfs :
    after (step (((start 6 [(6, 0x3400)]).setR 3 0x1ABC).setR 0 0x9999))
      (fun t => (t.getR 0, t.getR 3, t.pc)) = some (0, 0x1ABC, 2748) := by decide

/-- J23. -/
theorem test_rfs_reads_five_bits :
    after (step (((start 17 [(17, 0x37E7)]).setR 3 0x000C).setX .x3 0x0FFF))
      (fun t => (t.getR 0, t.pc, t.cache.misses)) = some (7, 12, 1) := by decide

/-- J26 and J27. -/
theorem test_sob_falls_through :
    after (step ((start 10 [(10, 0x3908)]).setR 1 1)) (fun t => (t.getR 1, t.pc))
      = some (0, 11) ∧
    after (step (start 10 [(10, 0x3908)])) (fun t => (t.getR 1, t.pc)) = some (0xFFFF, 11) := by
  decide

/-- J28 and J29: the wrapped value is read signed. -/
theorem test_sob_wraps :
    after (step ((start 10 [(10, 0x3908)]).setR 1 0x8000)) (fun t => (t.getR 1, t.pc, t.cc))
      = some (0x7FFF, 8, 0) ∧
    after (step ((start 10 [(10, 0x3908)]).setR 1 0x8001)) (fun t => (t.getR 1, t.pc))
      = some (0x8000, 11) := by decide

/-! ## Shift and rotate -/

/-- H17, H14, H16, H12: arithmetic and logical, right and left. -/
theorem test_src :
    after (step ((start 6 [(6, 0x6408)]).setR 0 0x8100)) (fun t => t.getR 0) = some 0xFF81 ∧
    after (step ((start 6 [(6, 0x6481)]).setR 0 0xFFFF)) (fun t => t.getR 0) = some 0x7FFF ∧
    after (step ((start 6 [(6, 0x644F)]).setR 0 0xFFFF)) (fun t => t.getR 0) = some 0x8000 ∧
    after (step ((start 6 [(6, 0x64CF)]).setR 0 0xFFFF)) (fun t => t.getR 0) = some 0x8000 := by
  decide

/-- V6 and V7. -/
theorem test_src_flag_meanings :
    after (step { (start 6 [(6, 0x64C3)]).setR 0 0x1234 with
        cfg := { defaultConfig with lrLeft := false } }) (fun t => t.getR 0) = some 0x0246 ∧
    after (step { (start 6 [(6, 0x6504)]).setR 1 0x8000 with
        cfg := { defaultConfig with alLogical := false } }) (fun t => t.getR 1) = some 0x0800 := by
  decide

/-- O9 and O12: the A/L bit and the unused bits play no part. -/
theorem test_rrc :
    after (step ((start 6 [(6, 0x6804)]).setR 0 0x1234)) (fun t => t.getR 0) = some 0x4123 ∧
    after (step ((start 6 [(6, 0x68F4)]).setR 0 0x1234)) (fun t => t.getR 0) = some 0x2341 := by
  decide

/-- O4 and O5. -/
theorem test_rrc_counts :
    after (step ((start 6 [(6, 0x6AC0)]).setR 2 0xBEEF)) (fun t => t.getR 2) = some 0xBEEF ∧
    after (step ((start 6 [(6, 0x6A4F)]).setR 2 0x0001)) (fun t => t.getR 2) = some 0x8000 := by
  decide

/-! ## Input and output -/

/-- I3 and I4. -/
theorem test_in :
    after (step { start 6 [(6, 0xC600)] with consoleIn := [some 70000] })
      (fun t => (t.getR 2, t.pc, t.consoleIn)) = some (0x1170, 7, []) ∧
    after (step { start 6 [(6, 0xC600)] with consoleIn := [some (-1)] })
      (fun t => t.getR 2) = some 0xFFFF := by decide

/-- I2: with none available, PC stays at the IN; a retry fetches it again, a hit. -/
theorem test_in_retries :
    let s := { (start 6 [(6, 0xC400)]).setR 0 0x7777 with consoleIn := [none, some 6] }
    after (step s) (fun t => (t.getR 0, t.pc, t.ir, t.halted)) = some (0x7777, 6, 0xC400, false) ∧
    after (step s) (fun t => t.consoleIn) = some [some 6] := by decide

/-- I9. -/
theorem test_out :
    after (step { (start 6 [(6, 0xCB01)]).setR 3 0xFFFF with consoleOut := [0x0041] })
      (fun t => (t.consoleOut, t.pc)) = some ([0x0041, 0xFFFF], 7) := by decide

/-! ## The cache and the host's operations -/

/-- CV2: of 17 distinct addresses read, the first is evicted, from line 0. -/
theorem test_cache_fifo :
    let c := readAll [] (List.range 17) Cache.empty
    (c.lines[0].map (·.tag), c.lines[1].map (·.tag), c.lines[15].map (·.tag), c.hits, c.misses)
      = (some 16, some 1, some 15, 0, 17) := by decide

/-- CV5: out of range at the cache, by any integer. -/
theorem test_cache_bounds :
    cacheReadAt 2048 [] Cache.empty = .error .addressOutOfRange ∧
    cacheWriteAt 2048 1 [] Cache.empty = .error .addressOutOfRange ∧
    cacheReadAt (-1) [] Cache.empty = .error .addressOutOfRange ∧
    cacheReadAt 4101 [] Cache.empty = .error .addressOutOfRange ∧
    memCtlReadAt 2047 [] = .ok 0 := ⟨rfl, rfl, rfl, rfl, rfl⟩

/-- CV6 and CV7: a word loaded behind the cache is seen after the cache is cleared. -/
theorem test_stale_line :
    let s := start 6 [(9, 1)]
    after ((memRead 9 s).andThen fun _ t => memRead 9 (loadPairs [(9, 2)] t).1 |>.andThen
      fun _ u => .next u) (fun t => (t.mbr, t.cache.hits)) = some (1, 1) ∧
    after ((memRead 9 s).andThen fun _ t => memRead 9 (cacheClear (loadPairs [(9, 2)] t).1) |>.andThen
      fun _ u => .next u) (fun t => (t.mbr, t.cache.hits)) = some (2, 0) := by decide

/-- R54 and U20: the words of a range; a range with an end outside memory is refused; the model's
answer to a reversed range (log 9). -/
theorem test_dump :
    dump 9 10 (start 6 [(9, 1), (10, 2)]) = .ok [1, 2] ∧
    dump 2047 2048 State.reset = .error .dumpOutOfRange ∧
    dump 3000 0 State.reset = .error .dumpOutOfRange ∧
    dump 10 9 State.reset = .ok [] := ⟨rfl, rfl, rfl, rfl⟩

/-- AS4: a comment, a pair, and a pair outside memory, which is reported and skipped. -/
theorem test_load_file :
    (match loadFile ["# comment".toList, "000012 000005".toList, "004000 000001".toList]
        State.reset with
      | .ok (s, skipped) => some (s.mem.readWord 10, s.mem.length, skipped)
      | .error _ => none) = some (5, 1, [(2048, 1)]) := by decide

/-- R225: the ends of the programs P4 and P1, read off the state. -/
theorem test_run_end :
    runEnd { State.reset with ir := 0xFC00, mfr := 0b0100, halted := true } = .fault ∧
    runEnd { State.reset with halted := true } = .normal ∧
    runEnd { State.reset with ir := 0xE480, halted := true } = .stopped ∧
    runEnd State.reset = .unfinished := by decide

/-! ## Witnesses: the hypotheses of each statement hold together, at the ends of their ranges -/

/-- A state with a valid line: address 2047 has been read. -/
def warm : State :=
  { start 2047 [(2047, 0x1801), (9, 0x0800)] with
    cache := readAll [(4094, 0x18), (4095, 0x01)] [2047] Cache.empty }

theorem witness_Inv : warm.Inv ∧ (warm.cache.lines[0]).isSome = true := by decide

/-- DecodeOfEncodeIsTheInstruction: the default OPMAP, and one that uses 63. -/
theorem witness_opmap : defaultOpmap.wf ∧ ({ defaultOpmap with not := 63 } : Opmap).wf := by decide

/-- EncodeOfDecodeClearsIgnoredBits, IgnoredBitsDoNotMatter: LX3 and its word with R = 0. -/
theorem witness_ignored_bits :
    decode defaultOpmap 0x8745 = .ok (.ldx (some .x1) false 5) ∧
    (0x8745 : Word) &&& readMask (Instr.ldx (some .x1) false 5).mnemonic =
      0x8445 &&& readMask (Instr.ldx (some .x1) false 5).mnemonic := by decide

/-- StepRunsTheDecodedInstruction: T3, the last address. -/
theorem witness_StepRuns :
    warm.Inv ∧ warm.pc.toNat = 2047 ∧ 2047 < memWords ∧
    decode warm.cfg.opmap (warm.mem.readWord warm.pc.toNat) = .ok (.air 0 1) := by decide

/-- StepNeverEndsInAFault: AIR 0,1 at the last address in memory (T3); and a PC beyond it, where
no word is fetched. -/
theorem witness_StepNeverEndsInAFault :
    warm.Inv ∧ decode warm.cfg.opmap (warm.mem.readWord warm.pc.toNat) = .ok (.air 0 1) ∧
    (Instr.air 0 1).wf = true ∧ (start 2048 []).Inv ∧ ¬ (start 2048 []).pc.toNat < memWords := by
  decide

/-- FetchBeyondMemoryFaults, StepCountsAtMostThreeAccesses: the first and the last PC beyond memory. -/
theorem witness_FetchBeyond :
    memWords ≤ (start 2048 []).pc.toNat ∧ memWords ≤ (start 4095 []).pc.toNat := by decide

/-- IllegalOpcodeIsTaken: T8 at the last address. -/
theorem witness_IllegalOpcode :
    let s := start 2047 [(2047, 0xFFFF)]
    s.Inv ∧ s.pc.toNat < memWords ∧
    decode s.cfg.opmap (s.mem.readWord s.pc.toNat) = .illegalOpcode 0o77 := by decide

/-- WellFormedCompletesIllFormedIsRefused. -/
theorem witness_wf :
    (Instr.ldx (some .x1) true 31).wf = true ∧ ((1 : Reg) = 1 ∨ (1 : Reg) = 3) ∧
    (1 : BitVec 5) ≠ 0 ∧ (0 : BitVec 5) ≠ 1 := by decide

/-- HaltSetsTheFlagOnly: T2. -/
theorem witness_Halt :
    let s := start 6 [(6, 0x03FF)]
    s.Inv ∧ s.pc.toNat < memWords ∧ opField (s.mem.readWord s.pc.toNat) = 0 := by decide

/-- The address operands of the witnesses below: 2047 and 2048, direct and indirect. -/
def indexed (indirect : Bool) (addr : BitVec 5) : AddrOperand := ⟨some .x3, indirect, addr⟩

/-- The state of E5 and E6, with a pointer at 9. -/
def pointers : State := (start 6 [(9, 0x0800), (10, 0x07FF), (11, 0xFFFF)]).setX .x3 0x07F8

/-- EffectiveAddressReadsMemory, OperandOutsideMemoryFaults, and every statement with an EA: an EA of
2047 (E5), of 2048 (E6), of 2063, of 65535 through memory (E7), and an indirect read out of range. -/
theorem witness_effective_addresses :
    pointers.Inv ∧
    eaOnMemory (indexed false 7) pointers = some 2047 ∧
    eaOnMemory (indexed false 8) pointers = some 2048 ∧
    eaOnMemory (noIndex true 9) pointers = some 2048 ∧
    eaOnMemory (noIndex true 10) pointers = some 2047 ∧
    eaOnMemory (noIndex true 11) pointers = some 65535 ∧
    eaOnMemory (indexed true 8) pointers = none ∧
    2047 < memWords ∧ memWords ≤ 2048 := by decide

/-- EffectiveAddressReadsMemory, the address in numbers: no index; sums of 2047, 2048 and 65566. -/
theorem witness_index_sums :
    (none = (none : Option XReg) ∧ (31 : Nat) = (31 : BitVec 5).toNat) ∧
    2047 = (7 : BitVec 5).toNat + (pointers.getX .x3).toNat ∧
    2048 = (8 : BitVec 5).toNat + (pointers.getX .x3).toNat ∧
    65566 = (31 : BitVec 5).toNat + ((pointers.setX .x1 0xFFFF).getX .x1).toNat ∧
    (2047 : Nat) ≤ 2047 ∧ 2047 < (2048 : Nat) := by decide

/-- StrStoresTheRegisterAtEa, StxStoresTheIndexRegister: S3 by an index, LX5 through memory. -/
theorem witness_stores :
    pointers.Inv ∧ (∃ u, effectiveAddress (indexed false 7) pointers = .done 2047 u) ∧
    (∃ u, effectiveAddressNoIndex true 10 pointers = .done 2047 u) :=
  ⟨by decide, ⟨_, rfl⟩, ⟨(match effectiveAddressNoIndex true 10 pointers with
    | .done _ u => u | .stopped u => u), by decide⟩⟩

/-- AddSubLaw, ImmediateArithmeticIsSignExtended: the parameters, and both values of ARITH. -/
theorem witness_AddSubLaw :
    State.reset.cfg.ccIndex.wf ∧ State.reset.cfg.arith = .signed ∧
    (let s := { State.reset with cfg := { defaultConfig with arith := .unsigned } }
     s.cfg.ccIndex.wf ∧ s.cfg.arith = .unsigned) := by decide

/-- MltGivesTheSignedProduct, DvdGivesQuotientAndRemainder, DvdByZeroSetsDivzero: rx = ry allowed. -/
theorem witness_pairs :
    ((2 : Reg) = 0 ∨ (2 : Reg) = 2) ∧ ((0 : Reg) = 0 ∨ (0 : Reg) = 2) ∧
    (State.reset.setR 2 0xFFFF).getR 2 ≠ 0 ∧ State.reset.getR 2 = 0 := by decide

/-- BitwiseOperationsActOnEveryBit: one register twice. -/
theorem witness_Bitwise : ((3 : Reg) = 3) := rfl

/-- SrcShiftsTheValue, RrcRotatesEveryBit: every meaning of the two flags. -/
theorem witness_flags :
    ((true : Bool) = State.reset.cfg.alLogical ∧ (false : Bool) ≠ State.reset.cfg.alLogical) ∧
    ((true : Bool) = State.reset.cfg.lrLeft ∧ (false : Bool) ≠ State.reset.cfg.lrLeft) := by decide

/-- InDeliversOrRetries: a value, the answer none, no answer listed, and I12. -/
theorem witness_In :
    (let s := { start 0 [(0, 0xC400)] with consoleIn := [none] }
     s.Inv ∧ s.pc.toNat < memWords ∧ s.consoleIn.head? = some none ∧
     decode s.cfg.opmap (s.mem.readWord s.pc.toNat) = .ok (.inp 0 0)) ∧
    State.reset.consoleIn = [] ∧
    ({ State.reset with consoleIn := [some 65536] } : State).consoleIn = some 65536 :: [] := by
  decide

/-- GeneralRegistersFrame, IndexRegistersFrame, ConditionCodeFrame: LDX X[1] leaves the others. -/
theorem witness_frames :
    (∃ t, exec (.ldx (some .x1) false 9) pointers = .next t) ∧
    (0 : Reg) ∉ destRegs pointers.cfg (.ldx (some .x1) false 9) ∧
    (∀ ind addr, Instr.ldx (some .x1) false 9 ≠ .ldx (some .x2) ind addr) ∧
    (0 : Fin 4) ∉ destCc pointers.cfg (.ldx (some .x1) false 9) :=
  ⟨⟨_, rfl⟩, by decide, by decide, by decide⟩

/-- FaultAndHaltFrame: a fault, HLT, a divide by zero that halts, and none of them. -/
theorem witness_FaultAndHalt :
    (∃ t, exec (.ldr 0 (indexed false 8)) pointers = .next t) ∧
    (∃ t, exec .hlt pointers = .next t) ∧
    (∃ t, exec (.dvd 0 2) { State.reset with cfg := { defaultConfig with dzPolicy := .halt } }
      = .next t) ∧
    (∃ t, exec (.lda 0 (indexed false 8)) pointers = .next t) :=
  ⟨⟨_, rfl⟩, ⟨_, rfl⟩, ⟨_, rfl⟩, ⟨_, rfl⟩⟩

/-- MemoryFrameOfNonStores, ProgramCounterFrame, AccessRegistersFrame,
InstructionRegisterAndConsoleFrame. -/
theorem witness_register_only :
    (∃ t, exec (.air 0 1) pointers = .next t) ∧ storesToMemory (.air 0 1) = false ∧
    mayWritePc (.air 0 1) = false ∧ usesAddress (.air 0 1) = false :=
  ⟨⟨_, rfl⟩, rfl, rfl, rfl⟩

/-- MemoryFrameOfStores: the cell below the word at 2047, and a store that faults. -/
theorem witness_MemoryFrameOfStores :
    pointers.mem.wf ∧ (∃ t, exec (.str 1 (indexed false 7)) pointers = .next t) ∧
    (∃ t, exec (.stx (some .x3) false 31) pointers = .next t) ∧
    (∀ e u, effectiveAddress (indexed false 7) pointers = .done e u → e < memWords →
      4093 ≠ 2 * e ∧ 4093 ≠ 2 * e + 1) ∧
    (∀ e u, effectiveAddressNoIndex false 31 pointers = .done e u → e < memWords →
      61 ≠ 2 * e ∧ 61 ≠ 2 * e + 1) ∧
    (∀ e u, effectiveAddress (indexed false 8) pointers = .done e u → e < memWords →
      4094 ≠ 2 * e ∧ 4094 ≠ 2 * e + 1) := by
  refine ⟨by decide, ⟨_, rfl⟩, ⟨_, rfl⟩, ?_, ?_, ?_⟩ <;> (intro e u h hm; cases h; revert hm; decide)

/-- StepKeepsTheInvariants, ValidLinesStayValid, StepCountsAtMostThreeAccesses: a step of T3 with a
line valid. -/
theorem witness_step :
    warm.Inv ∧ after (step warm) (fun t => t.pc) = some 2048 ∧
    (warm.cache.lines[0]).isSome = true ∧ warm.pc.toNat < memWords := by decide

/-- CacheIsInvisibleToTheProgram: a line of the instruction is valid in one state and not in the
other. -/
theorem witness_SameButCache :
    warm.Inv ∧ State.Inv { warm with cache := Cache.empty } ∧
    warm.cache ≠ Cache.empty ∧ SameButCache warm { warm with cache := Cache.empty } :=
  ⟨by decide, by decide, by decide, rfl⟩

/-- StepNeverClearsAFault: MFR bits and halted set before, and MFR changed by the step. -/
theorem witness_StepNeverClearsAFault :
    let s := { start 6 [(6, 0xFFFF)] with mfr := 0b1001, halted := true }
    after (step s) (fun t => (t.mfr, t.halted)) = some (0b1101, true) ∧ s.mfr.getLsbD 3 = true ∧
    (0 : Fin 4) ≠ s.cfg.mfrIllop ∧ (0 : Fin 4) ≠ s.cfg.mfrMem := by decide

/-- MemoryControllerReadsWhatWasWritten, CacheIsTransparent: the last address and the first beyond. -/
theorem witness_memory :
    pointers.mem.wf ∧ pointers.Inv ∧ (0 : Int) ≤ 2047 ∧ (2047 : Int) ≤ 2047 ∧ 2047 < memWords ∧
    memWords ≤ 2048 ∧
    ((-1 : Int) < 0 ∨ (2047 : Int) < -1) ∧ (2047 : Int) < 2048 ∧ (0 : Int) ≠ 2047 := by decide

/-- CacheIsFifo: a read of the last address, and the 17 addresses of CV2. -/
theorem witness_CacheIsFifo :
    warm.cache.wf ∧
    cacheRead 2047 [] Cache.empty =
      .ok (0, ((Cache.empty.install 2047 0).countMiss)) ∧
    (List.range 17).Nodup ∧ (∀ a ∈ List.range 17, a < memWords) :=
  ⟨by decide, rfl, by decide, by decide⟩

/-- BootLoadsAndEstablishesTheInvariants, HostSetsTruncate. -/
theorem witness_host :
    State.reset.mem.wf ∧ State.reset.cfg.ccPack.toList.Nodup ∧
    (NamedReg.x .x3 ≠ .r 3) := by decide

/-- RunStopsAtHalted: the word 0 at address 0 is HLT (R103), so one step from power-on halts. -/
theorem witness_Run :
    (∃ t, run id 1 State.reset = .next t ∧ t.halted = true) ∧
    ({ State.reset with halted := true } : State).halted = true :=
  ⟨⟨_, rfl, rfl⟩, rfl⟩

end Sys2Proof.Tests
end

/-! The memory controller at any integer address (spec/20_memory.md R52). -/

namespace Sys2Proof.Machine

/-! ## Integer addresses -/

theorem atInteger_natCast {α : Type} (access : Nat → Except Fault α) (n : Nat) :
    atInteger access n = access n := if_pos (Int.natCast_nonneg n)

theorem atInteger_negative {α : Type} {access : Nat → Except Fault α} {a : Int} (h : a < 0) :
    atInteger access a = .error .addressOutOfRange := if_neg (Int.not_le.2 h)

/-- An integer in 0 to 2047 is an address of the memory. -/
theorem exists_address_of_inRange {a : Int} (h0 : 0 ≤ a) (h1 : a ≤ 2047) :
    ∃ n : Nat, a = n ∧ n < memWords :=
  ⟨a.toNat, by omega, show a.toNat < 2048 by omega⟩

/-- An access that fails at every address beyond the memory fails at every integer outside it. -/
theorem atInteger_outOfRange {α : Type} {access : Nat → Except Fault α} {a : Int}
    (haccess : ∀ n, ¬ n < memWords → access n = .error .addressOutOfRange)
    (h : a < 0 ∨ 2047 < a) : atInteger access a = .error .addressOutOfRange := by
  rcases h with h | h
  · exact atInteger_negative h
  · obtain ⟨n, rfl⟩ := Int.eq_ofNat_of_zero_le (show 0 ≤ a by omega)
    rw [atInteger_natCast]
    exact haccess n (show ¬ n < 2048 by omega)

/-! ## Reads and writes (R52) -/

theorem memCtlReadAt_ok {n : Nat} {m : Memory} (h : n < memWords) :
    memCtlReadAt n m = .ok (m.readWord n) :=
  (atInteger_natCast _ n).trans (memCtlRead_ok h)

theorem memCtlWriteAt_ok {n : Nat} {v : Word} {m : Memory} (h : n < memWords) :
    memCtlWriteAt n v m = .ok (m.writeWord n v) :=
  (atInteger_natCast _ n).trans (memCtlWrite_ok h)

theorem memCtlReadAt_error {a : Int} {m : Memory} (h : a < 0 ∨ 2047 < a) :
    memCtlReadAt a m = .error .addressOutOfRange :=
  atInteger_outOfRange (fun _ => memCtlRead_error) h

theorem memCtlWriteAt_error {a : Int} {v : Word} {m : Memory} (h : a < 0 ∨ 2047 < a) :
    memCtlWriteAt a v m = .error .addressOutOfRange :=
  atInteger_outOfRange (fun _ => memCtlWrite_error) h

/-- A word write changes no read at another integer address, in range or not. -/
theorem memCtlReadAt_writeWord_of_ne {m : Memory} (hm : m.wf) {n : Nat} {b : Int} (v : Word)
    (hb : b ≠ n) : memCtlReadAt b (m.writeWord n v) = memCtlReadAt b m := by
  by_cases hr : b < 0 ∨ 2047 < b
  · rw [memCtlReadAt_error hr, memCtlReadAt_error hr]
  · obtain ⟨k, rfl, hk⟩ := exists_address_of_inRange (a := b) (by omega) (by omega)
    have hnk : n ≠ k := fun h => hb (by rw [h])
    rw [memCtlReadAt_ok hk, memCtlReadAt_ok hk, Memory.readWord_writeWord hm, if_neg hnk]

/-- Settles O55: below 2048 by the read-after-write law of the memory array, elsewhere by the bounds
check on the whole address. -/
theorem memoryControllerReadsWhatWasWritten :
    Obligations.MemoryControllerReadsWhatWasWritten := by
  refine ⟨fun m a v hm => ⟨fun h0 h1 => ?_, fun h => ?_⟩, fun s a v ha => ?_⟩
  · obtain ⟨n, rfl, hn⟩ := exists_address_of_inRange h0 h1
    refine ⟨memCtlReadAt_ok hn, m.writeWord n v, memCtlWriteAt_ok hn,
      Memory.wf_writeWord hm hn v, ?_, fun b hb => memCtlReadAt_writeWord_of_ne hm v hb⟩
    rw [memCtlReadAt_ok hn, Memory.readWord_writeWord hm, if_pos rfl]
  · exact ⟨memCtlReadAt_error h, memCtlWriteAt_error h⟩
  · have hout : ¬ a < memWords := Nat.not_lt.2 ha
    exact ⟨⟨_, memRead_stopped s hout, memoryFaultFrom_takeFault s _⟩,
      ⟨_, memWrite_stopped v s hout, memoryFaultFrom_takeFault s _⟩⟩

end Sys2Proof.Machine

/-! The cache is a FIFO (spec/20_memory.md R60, R63, R74). The idea: the free lines are used from the
lowest up and then the oldest line is replaced, so insertion number k always goes to line k mod 16. -/

namespace Sys2Proof.Machine

/-! ## A second read of an address -/

/-- A line just installed for an address not resident is the one found for it. -/
theorem Cache.lookup_install_same {c : Cache} {a : Nat} (v : Word) (hn : c.lookup a = none) :
    (c.install a v).lookup a = some (c.slot, { tag := a, data := v, order := c.seq }) := by
  have hslot := Cache.lines_install c a v c.slot
  rw [if_pos rfl] at hslot
  obtain ⟨⟨i, l⟩, hil⟩ := Option.isSome_iff_exists.1
    (Cache.lookup_isSome.2 ⟨c.slot, _, hslot, rfl⟩)
  obtain ⟨hl, htag⟩ := Cache.lookup_some hil
  have hi : c.slot = i := by
    by_contra hne
    rw [Cache.lines_install, if_neg hne] at hl
    exact Cache.lookup_none hn i l hl htag
  subst hi
  rw [hil, ← Option.some.inj (hslot.symm.trans hl)]

/-- After a read that succeeds the word read is found in the cache (R60, R63). -/
theorem lookup_of_cacheRead {a : Nat} {m : Memory} {c c' : Cache} {v : Word}
    (h : cacheRead a m c = .ok (v, c')) :
    a < memWords ∧ ∃ i l, c'.lookup a = some (i, l) ∧ l.data = v := by
  by_cases ha : a < memWords
  · refine ⟨ha, ?_⟩
    rcases hl : c.lookup a with _ | ⟨i, l⟩
    · rw [cacheRead_miss ha hl] at h
      cases h
      exact ⟨_, _, Cache.lookup_install_same _ hl, rfl⟩
    · rw [cacheRead_hit ha hl] at h
      cases h
      exact ⟨i, l, hl, rfl⟩
  · rw [cacheRead_error ha] at h
    cases h

/-- R74 (a). -/
theorem cacheRead_again {a : Nat} {m : Memory} {c c' : Cache} {v : Word}
    (h : cacheRead a m c = .ok (v, c')) : cacheRead a m c' = .ok (v, c'.countHit) := by
  obtain ⟨ha, i, l, hl, rfl⟩ := lookup_of_cacheRead h
  exact cacheRead_hit ha hl

/-! ## The free slot is the lowest -/

theorem lineIndices_eq_finRange : lineIndices = List.finRange 16 := rfl

/-- Every line below the free slot is valid (D25). -/
theorem Cache.isSome_of_lt_freeSlot {c : Cache} {i j : Fin 16} (h : c.freeSlot = some i)
    (hj : j < i) : (c.lines[j]).isSome := by
  rw [Cache.freeSlot, lineIndices_eq_finRange] at h
  obtain ⟨-, n, hn, rfl, hbelow⟩ := List.find?_eq_some_iff_getElem.1 h
  simpa [Option.isSome_iff_ne_none] using hbelow j (by simpa [Fin.lt_def] using hj)

/-! ## Round robin -/

/-- The cache holds the last 16 of the insertions `as` (oldest first): number k, of those, in line
k mod 16, and the lines not yet reached are invalid. -/
structure Cache.HoldsLast (c : Cache) (as : List Nat) : Prop where
  seq : c.seq = as.length
  line : ∀ (i : Fin 16) (k : Nat), k % 16 = i → k < as.length → as.length ≤ k + 16 →
    ∃ l, c.lines[i] = some l ∧ as[k]? = some l.tag ∧ l.order = k
  free : ∀ i : Fin 16, as.length ≤ i → c.lines[i] = none

namespace Cache.HoldsLast

variable {c : Cache} {as : List Nat}

theorem empty : Cache.empty.HoldsLast [] :=
  ⟨rfl, fun _ _ _ hk => absurd hk (Nat.not_lt_zero _), fun i _ => Cache.lines_empty i⟩

theorem countMiss (h : c.HoldsLast as) : c.countMiss.HoldsLast as := ⟨h.seq, h.line, h.free⟩

/-- Each line reached holds one of the last 16 insertions, the one its order numbers. -/
theorem exists_line (h : c.HoldsLast as) {i : Fin 16} (hi : i.val < as.length) :
    ∃ l, c.lines[i] = some l ∧ l.order % 16 = i ∧ l.order < as.length ∧
      as.length ≤ l.order + 16 ∧ as[l.order]? = some l.tag := by
  obtain ⟨k, hmod, hlt, hle⟩ : ∃ k, k % 16 = i.val ∧ k < as.length ∧ as.length ≤ k + 16 :=
    ⟨as.length - 1 - (as.length - 1 - i.val) % 16, by omega, by omega, by omega⟩
  obtain ⟨l, hl, htag, rfl⟩ := h.line i k hmod hlt hle
  exact ⟨l, hl, hmod, hlt, hle, htag⟩

/-- The invalid lines are those not yet reached. -/
theorem line_eq_none_iff (h : c.HoldsLast as) {i : Fin 16} :
    c.lines[i] = none ↔ as.length ≤ i := by
  refine ⟨fun hnone => ?_, h.free i⟩
  by_contra hlt
  obtain ⟨l, hl, -⟩ := h.exists_line (Nat.lt_of_not_le hlt)
  cases hnone.symm.trans hl

/-- A valid line is one reached. -/
theorem lt_of_isSome (h : c.HoldsLast as) {i : Fin 16} (hi : (c.lines[i]).isSome) :
    i.val < as.length := by
  by_contra hge
  rw [h.free i (Nat.le_of_not_lt hge)] at hi
  cases hi

/-- A valid line holds one of the last 16 insertions, the one its order numbers. -/
theorem order_of_line (h : c.HoldsLast as) {i : Fin 16} {l : Line} (hl : c.lines[i] = some l) :
    l.order % 16 = i ∧ l.order < as.length ∧ as.length ≤ l.order + 16 ∧
      as[l.order]? = some l.tag := by
  obtain ⟨l', hl', hfacts⟩ := h.exists_line (h.lt_of_isSome (Option.isSome_of_eq_some hl))
  cases hl.symm.trans hl'
  exact hfacts

/-- With every line valid the oldest one is the next round robin: number n - 16 is the smallest order
(R63). -/
theorem oldest_eq (h : c.HoldsLast as) (hfull : 16 ≤ as.length) :
    c.oldest.val = as.length % 16 := by
  obtain ⟨l, hl, hmod, -, hge, -⟩ :=
    h.exists_line (i := c.oldest) (Nat.lt_of_lt_of_le c.oldest.isLt hfull)
  obtain ⟨k, hk, -, hord⟩ := h.line (Fin.ofNat 16 as.length) (as.length - 16)
    (show (as.length - 16) % 16 = as.length % 16 by omega) (by omega) (by omega)
  have hold : l.order ≤ k.order := by
    simpa only [Cache.orderAt, hl, hk] using c.oldest_le (Fin.ofNat 16 as.length)
  omega

/-- The next insertion goes to the next line, round robin (R63, D25). -/
theorem slot_eq (h : c.HoldsLast as) : c.slot.val = as.length % 16 := by
  unfold Cache.slot
  rcases hf : c.freeSlot with _ | i
  · exact h.oldest_eq (h.lt_of_isSome (i := 15) (Cache.freeSlot_none hf 15))
  · have hge : as.length ≤ i.val := h.line_eq_none_iff.1 (Cache.freeSlot_some hf)
    have hle : ¬ as.length < i.val := fun hlt =>
      Nat.lt_irrefl _ (h.lt_of_isSome (i := ⟨as.length, by omega⟩)
        (Cache.isSome_of_lt_freeSlot hf hlt))
    show i.val = as.length % 16
    omega

/-- Installing one more address keeps the round robin (R63). -/
theorem install (h : c.HoldsLast as) (a : Nat) (v : Word) :
    (c.install a v).HoldsLast (as ++ [a]) := by
  have hslot := h.slot_eq
  refine ⟨by simp [h.seq], fun i k hmod hlt hle => ?_, fun i hi => ?_⟩
  · rw [List.length_append, List.length_singleton] at hlt hle
    rw [Cache.lines_install]
    by_cases hk : k = as.length
    · subst hk
      rw [if_pos (Fin.ext (hslot.trans hmod))]
      exact ⟨_, rfl, by simp, h.seq⟩
    · rw [if_neg (fun hi => by omega), List.getElem?_append_left (by omega)]
      exact h.line i k hmod (by omega) (by omega)
  · rw [List.length_append, List.length_singleton] at hi
    rw [Cache.lines_install, if_neg (fun hs => by omega)]
    exact h.free i (by omega)

/-- An address that was never inserted is not found. -/
theorem lookup_eq_none (h : c.HoldsLast as) {a : Nat} (ha : a ∉ as) : c.lookup a = none := by
  rcases hl : c.lookup a with _ | ⟨i, l⟩
  · rfl
  · obtain ⟨hline, rfl⟩ := Cache.lookup_some hl
    obtain ⟨-, -, -, htag⟩ := h.order_of_line hline
    exact absurd (List.mem_of_getElem? htag) ha

/-- Reading new, distinct addresses inserts each of them, in order. -/
theorem after_readAll {m : Memory} {rest : List Nat} (h : c.HoldsLast as) (hnodup : (as ++ rest).Nodup)
    (hrange : ∀ a ∈ rest, a < memWords) : (readAll m rest c).HoldsLast (as ++ rest) := by
  induction rest generalizing c as with
  | nil => simpa [readAll] using h
  | cons a rest ih =>
    have hnew : a ∉ as := fun ha => List.disjoint_of_nodup_append hnodup ha (by simp)
    have hread := cacheRead_miss (m := m) (hrange a (by simp)) (h.lookup_eq_none hnew)
    rw [List.append_cons] at hnodup ⊢
    simp only [readAll, hread]
    exact ih (h.install a _).countMiss hnodup fun b hb => hrange b (by simp [hb])

/-- The resident addresses are exactly the last 16 inserted (R74 (b)). -/
theorem resident_iff (h : c.HoldsLast as) (a : Nat) :
    c.resident a ↔ a ∈ as.drop (as.length - 16) := by
  rw [List.mem_drop_iff_getElem]
  constructor
  · rintro ⟨i, l, hl, rfl⟩
    obtain ⟨-, hlt, hle, htag⟩ := h.order_of_line hl
    obtain ⟨j, hj⟩ := Nat.exists_eq_add_of_le (show as.length - 16 ≤ l.order by omega)
    rw [hj] at htag
    exact ⟨j, by omega, (List.getElem?_eq_some_iff.1 htag).2⟩
  · rintro ⟨j, hj, rfl⟩
    obtain ⟨l, hl, htag, -⟩ := h.line (Fin.ofNat 16 (as.length - 16 + j)) (as.length - 16 + j)
      rfl (by omega) (by omega)
    exact ⟨_, l, hl, (List.getElem?_eq_some_iff.1 htag).2.symm⟩

end Cache.HoldsLast

/-- Settles O57: (a) a read leaves its word resident; (b) insertion k goes to line k mod 16, which
every read of a new address keeps. -/
theorem cacheIsFifo : Obligations.CacheIsFifo :=
  ⟨fun _ _ _ _ _ _ h => cacheRead_again h,
    fun _ _ hnodup hrange => (Cache.HoldsLast.empty.after_readAll hnodup hrange).resident_iff⟩

end Sys2Proof.Machine

/-! HLT (spec/40_cycle_ea_halt.md R131). Opcode 0 is HLT under every OPMAP, legal or not, because
decoding meets HLT first in the order of R98. -/

namespace Sys2Proof

theorem Opmap.mnemonic_zero (m : Opmap) : m.mnemonic 0 = some .hlt :=
  List.find?_cons_of_pos (beq_self_eq_true (0 : BitVec 6))

theorem decode_of_opField_zero (m : Opmap) {w : Word} (h : opField w = 0) :
    decode m w = .ok .hlt := by
  rw [decode, h, Opmap.mnemonic_zero]; rfl

end Sys2Proof

namespace Sys2Proof.Machine

/-- R131. -/
theorem exec_hlt (s : State) : exec .hlt s = .next { s with halted := true } := rfl

/-- A step runs the instruction that memory's word at PC decodes to, after the fetch's one read
(R120 to R122, R68). -/
theorem step_of_decode {s : State} {i : Instr} (hs : s.coherent) (hpc : s.pc.toNat < memWords)
    (hi : decode s.cfg.opmap (s.mem.readWord s.pc.toNat) = .ok i) :
    ∃ u, Reads 1 s u ∧ u.mar = s.pc ∧ u.mbr = s.mem.readWord s.pc.toNat ∧
      step s = exec i (fetched s u (s.mem.readWord s.pc.toNat)) := by
  rcases step_cases s with ⟨hout, -⟩ | ⟨-, w, u, hread, hmar, hmbr, hw, hstep⟩
  · exact absurd hpc hout
  · obtain rfl := hw hs
    have hcfg : u.cfg = s.cfg := by rw [hread.same]
    refine ⟨u, hread, hmar, hmbr, hstep.trans ?_⟩
    rw [← hcfg] at hi
    rcases decodeExecute_cases (fetched s u (s.mem.readWord s.pc.toNat)) with
      ⟨op, hop, -⟩ | ⟨j, hj, hrun⟩
    · cases hi.symm.trans hop
    · cases hi.symm.trans hj
      exact hrun

/-- Settles O12: the word with opcode 0 decodes to HLT, which halts the state the fetch left. -/
theorem haltSetsTheFlagOnly : Obligations.HaltSetsTheFlagOnly := by
  refine ⟨exec_hlt, fun s hinv hpc hop => ?_⟩
  obtain ⟨-, -, hcoherent⟩ := hinv
  obtain ⟨u, hread, -, -, hstep⟩ :=
    step_of_decode hcoherent hpc (decode_of_opField_zero s.cfg.opmap hop)
  have hsame : SameButAccess s u := hread.same
  refine ⟨_, hstep.trans (exec_hlt _), ?_⟩
  rw [SameButAccess] at hsame
  rw [hsame]; rfl

end Sys2Proof.Machine

/-! Decoding and encoding (spec/30_encoding.md R91 to R100): the fields of a packed word, the bits
an instruction reads, and the round trips. -/

namespace Sys2Proof

/-! ## Decoding, said once (R98, R100) -/

theorem instrOf_mnemonic (w : Word) (k : Mnemonic) : (instrOf w k).mnemonic = k := by
  cases k <;> rfl

theorem decode_eq_ok_iff {m : Opmap} {w : Word} {i : Instr} :
    decode m w = .ok i ↔ m.mnemonic (opField w) = some i.mnemonic ∧ instrOf w i.mnemonic = i := by
  unfold decode
  cases hk : m.mnemonic (opField w) with
  | none => simp
  | some k =>
    simp only [DecodeResult.ok.injEq, Option.some.injEq]
    constructor
    · rintro rfl
      rw [instrOf_mnemonic]
      exact ⟨rfl, rfl⟩
    · rintro ⟨rfl, h⟩
      exact h

theorem decode_eq_illegalOpcode_iff {m : Opmap} {w : Word} {op : BitVec 6} :
    decode m w = .illegalOpcode op ↔ op = opField w ∧ m.mnemonic (opField w) = none := by
  unfold decode
  cases hk : m.mnemonic (opField w) with
  | none => simp [eq_comm]
  | some k => simp

theorem Opmap.mnemonic_eq_none_iff {m : Opmap} {op : BitVec 6} :
    m.mnemonic op = none ↔ ∀ k, m.opcode k ≠ op := by
  simp [Opmap.mnemonic, List.find?_eq_none, Mnemonic.mem_all]

/-- Settles O5: the search for the opcode fails exactly when no mnemonic has it. -/
theorem illegalExactlyOutsideTheOpmap : Obligations.IllegalExactlyOutsideTheOpmap := by
  intro m w op
  rw [decode_eq_illegalOpcode_iff, Opmap.mnemonic_eq_none_iff]

/-! ## An instruction is read back from its word (R91 to R98) -/

theorem opField_encode (m : Opmap) (i : Instr) : opField (encode m i) = m.opcode i.mnemonic := by
  cases i
  case air | sir => exact opField_packImm ..
  case src | rrc => exact opField_packShift ..
  all_goals exact opField_packGeneral ..

section general
variable (op : BitVec 6) (r ix : BitVec 2) (i : Bool) (addr : BitVec 5)

@[simp] theorem regField_packGeneral : regField (packGeneral op r ix i addr) = r.toFin :=
  congrArg BitVec.toFin (rBits_packGeneral op r ix i addr)

@[simp] theorem ryField_packGeneral : ryField (packGeneral op r ix i addr) = ix.toFin :=
  congrArg BitVec.toFin (ixBits_packGeneral op r ix i addr)

@[simp] theorem ixField_packGeneral : ixField (packGeneral op r ix i addr) = xregOfSelector ix :=
  congrArg xregOfSelector (ixBits_packGeneral op r ix i addr)

@[simp] theorem addrOperandField_packAddr (a : AddrOperand) :
    addrOperandField (packAddr op r a) = a := by
  simp [addrOperandField, packAddr, xregOfSelector_selectorBits, indirectField_packGeneral,
    addrField_packGeneral]

@[simp] theorem regField_packAddr (a : AddrOperand) : regField (packAddr op r a) = r.toFin :=
  regField_packGeneral ..

end general

@[simp] theorem regField_packImm (op : BitVec 6) (r : BitVec 2) (imm : BitVec 8) :
    regField (packImm op r imm) = r.toFin :=
  congrArg BitVec.toFin (rBits_packImm op r imm)

@[simp] theorem regField_packShift (op : BitVec 6) (r : BitVec 2) (al lr : Bool) (c : BitVec 4) :
    regField (packShift op r al lr c) = r.toFin :=
  congrArg BitVec.toFin (rBits_packShift op r al lr c)

/-- The fields R99 lists for an instruction, read from its word, are its operands. -/
theorem instrOf_encode (m : Opmap) (i : Instr) : instrOf (encode m i) i.mnemonic = i := by
  cases i <;>
    simp [instrOf, encode, Instr.mnemonic, toFin_regBits, xregOfSelector_selectorBits,
      indirectField_packGeneral, addrField_packGeneral, immField_packImm, alField_packShift,
      lrField_packShift, countField_packShift]

/-- Settles O2: the opcode field selects the mnemonic, and the fields are the operands. -/
theorem decodeOfEncodeIsTheInstruction : Obligations.DecodeOfEncodeIsTheInstruction := by
  intro m i hm
  rw [decode_eq_ok_iff, opField_encode]
  exact ⟨Opmap.mnemonic_opcode hm _, instrOf_encode m i⟩

/-! ## The bits an instruction reads (R99) -/

/-- A field inside the mask reads the same after masking. -/
theorem extractLsb'_and_mask {w mask : Word} {start len : Nat}
    (h : mask.extractLsb' start len = BitVec.allOnes len) :
    (w &&& mask).extractLsb' start len = w.extractLsb' start len := by
  rw [BitVec.extractLsb'_and, h, BitVec.and_allOnes]

theorem opField_and_readMask (w : Word) (k : Mnemonic) : opField (w &&& readMask k) = opField w :=
  extractLsb'_and_mask (by cases k <;> rfl)

/-- Decoding reads only the bits of the mask. -/
theorem instrOf_and_readMask (w : Word) (k : Mnemonic) :
    instrOf (w &&& readMask k) k = instrOf w k := by
  cases k <;>
    simp (disch := decide) only [instrOf, readMask, regField, ryField, addrOperandField, ixField,
      indirectField, addrField, immField, alField, lrField, countField, extractLsb'_and_mask,
      BitVec.getLsbD_and, BitVec.reduceGetLsb, Bool.and_true]

/-- Settles O4: decoding reads only the bits of the mask, so it cannot tell the two words apart. -/
theorem ignoredBitsDoNotMatter : Obligations.IgnoredBitsDoNotMatter := by
  intro m w v i hw hmask
  obtain ⟨hk, hi⟩ := decode_eq_ok_iff.1 hw
  rw [decode_eq_ok_iff, ← opField_and_readMask v i.mnemonic, ← instrOf_and_readMask v, ← hmask,
    opField_and_readMask, instrOf_and_readMask]
  exact ⟨hk, hi⟩

/-! ## Encoding what was decoded -/

theorem selectorBits_xregOfSelector (b : BitVec 2) : selectorBits (xregOfSelector b) = b := by
  revert b; decide

/-- Two neighbouring fields are one. -/
theorem append_fields (w : Word) (j k n : Nat) :
    w.extractLsb' (j + k) n ++ w.extractLsb' j k = w.extractLsb' j (n + k) :=
  BitVec.extractLsb'_append_extractLsb'_eq_extractLsb' rfl

theorem ofBool_getLsbD (w : Word) (j : Nat) : BitVec.ofBool (w.getLsbD j) = w.extractLsb' j 1 := by
  apply BitVec.eq_of_getLsbD_eq
  intro i hi
  obtain rfl : i = 0 := by omega
  simp

/-- A word is its fields in the general format (R91). -/
theorem packGeneral_fields (w : Word) :
    packGeneral (opField w) (w.extractLsb' 8 2) (w.extractLsb' 6 2) (indirectField w) (addrField w)
      = w := by
  simp only [packGeneral, opField, indirectField, addrField, ofBool_getLsbD]
  rw [append_fields w 8 2 6, append_fields w 6 2 8, append_fields w 5 1 10, append_fields w 0 5 11]
  exact extractLsb'_whole w

theorem packGeneral_and_packGeneral (op op' : BitVec 6) (r r' ix ix' : BitVec 2) (i i' : Bool)
    (addr addr' : BitVec 5) :
    packGeneral op r ix i addr &&& packGeneral op' r' ix' i' addr' =
      packGeneral (op &&& op') (r &&& r') (ix &&& ix') (i && i') (addr &&& addr') := by
  unfold packGeneral
  rw [BitVec.and_append, BitVec.and_append, BitVec.and_append, BitVec.and_append,
    BitVec.ofBool_and_ofBool]

/-- The mask of the opcode and of the fields of the general format that are named. -/
def fieldMask (r ix i addr : Bool) : Word :=
  packGeneral (BitVec.allOnes 6) (bif r then BitVec.allOnes 2 else 0)
    (bif ix then BitVec.allOnes 2 else 0) i (bif addr then BitVec.allOnes 5 else 0)

/-- A word under such a mask is its named fields, the others 0 (R91, R99). -/
theorem and_fieldMask (w : Word) (r ix i addr : Bool) :
    w &&& fieldMask r ix i addr =
      packGeneral (opField w) (bif r then w.extractLsb' 8 2 else 0)
        (bif ix then w.extractLsb' 6 2 else 0) (bif i then indirectField w else false)
        (bif addr then addrField w else 0) := by
  have hselect : ∀ {n : Nat} (b : Bool) (x : BitVec n),
      x &&& (bif b then BitVec.allOnes n else 0) = bif b then x else 0 := by
    intro n b x
    cases b
    · exact BitVec.and_zero
    · exact BitVec.and_allOnes
  conv_lhs => rw [← packGeneral_fields w]
  rw [fieldMask, packGeneral_and_packGeneral, hselect, hselect, hselect, BitVec.and_allOnes]
  cases i <;> simp only [Bool.and_true, Bool.and_false, cond_true, cond_false]

/-- A word is its fields in the format with the 8-bit immediate (R94). -/
theorem packImm_fields (w : Word) : packImm (opField w) (w.extractLsb' 8 2) (immField w) = w := by
  simp only [packImm, opField, immField]
  rw [append_fields w 8 2 6, append_fields w 0 8 8]
  exact extractLsb'_whole w

/-- A word is its fields in the shift/rotate format, bits 5 and 4 among them (R92). -/
theorem shift_fields (w : Word) :
    opField w ++ w.extractLsb' 8 2 ++ w.extractLsb' 7 1 ++ w.extractLsb' 6 1 ++ w.extractLsb' 4 2 ++
      countField w = w := by
  rw [opField, countField, append_fields w 8 2 6, append_fields w 7 1 8, append_fields w 6 1 9,
    append_fields w 4 2 10, append_fields w 0 4 12]
  exact extractLsb'_whole w

/-- The shift/rotate format drops the two unused bits, 5 and 4, and no other (R92). -/
theorem packShift_fields (w : Word) :
    packShift (opField w) (w.extractLsb' 8 2) (alField w) (lrField w) (countField w) =
      w &&& 0xFFCF := by
  have hmask : (0xFFCF : Word) = BitVec.allOnes 6 ++ BitVec.allOnes 2 ++ BitVec.allOnes 1 ++
      BitVec.allOnes 1 ++ 0#2 ++ BitVec.allOnes 4 := by decide
  rw [hmask]
  conv_rhs => rw [← shift_fields w]
  rw [BitVec.and_append, BitVec.and_append, BitVec.and_append, BitVec.and_append,
    BitVec.and_append]
  simp only [BitVec.and_allOnes, BitVec.and_zero, packShift, alField, lrField, ofBool_getLsbD]

/-- The word of the fields a mnemonic reads is the word with all other bits cleared (R99). -/
theorem encode_instrOf {m : Opmap} {w : Word} {k : Mnemonic} (h : m.opcode k = opField w) :
    encode m (instrOf w k) = w &&& readMask k := by
  have hr : regBits (regField w) = w.extractLsb' 8 2 := rfl
  have hry : regBits (ryField w) = w.extractLsb' 6 2 := rfl
  have hix : selectorBits (ixField w) = w.extractLsb' 6 2 := selectorBits_xregOfSelector _
  have hmask := and_fieldMask w
  cases k <;>
    simp only [encode, instrOf, Instr.mnemonic, h, hr, hry, hix, packAddr, addrOperandField]
  case air | sir => exact (packImm_fields w).trans BitVec.and_allOnes.symm
  case src | rrc => exact packShift_fields w
  case hlt => exact (hmask false false false false).symm
  case rfs => exact (hmask false false false true).symm
  case jma | jsr | ldx | stx => exact (hmask false true true true).symm
  case not => exact (hmask true false false false).symm
  case inp | out => exact (hmask true false false true).symm
  case mlt | dvd | trr | and | orr => exact (hmask true true false false).symm
  all_goals exact (hmask true true true true).symm

/-- Settles O3: a decoded word is encoded field by field. -/
theorem encodeOfDecodeClearsIgnoredBits : Obligations.EncodeOfDecodeClearsIgnoredBits := by
  intro m w i hw
  obtain ⟨hk, hi⟩ := decode_eq_ok_iff.1 hw
  conv_lhs => rw [← hi]
  exact encode_instrOf (Opmap.opcode_of_mnemonic hk)

/-! ## Weights (R91, R92) -/

theorem toNat_append_eq_add {n k : Nat} (x : BitVec n) (y : BitVec k) :
    (x ++ y).toNat = x.toNat * 2 ^ k + y.toNat := by
  rw [BitVec.toNat_append, ← Nat.shiftLeft_add_eq_or_of_lt y.isLt, Nat.shiftLeft_eq]

/-- Settles O6: each append multiplies what stands left of it by the width of what it adds. -/
theorem fieldsHaveTheirWeights : Obligations.FieldsHaveTheirWeights := by
  constructor
  · intro op r ix i addr
    simp only [packGeneral, toNat_append_eq_add, BitVec.toNat_ofBool]
    omega
  · intro op r al lr count
    simp only [packShift, toNat_append_eq_add, BitVec.toNat_ofBool, BitVec.toNat_ofNat]
    omega

/-- Settles O1, by running the decoder on each word. -/
theorem sampleWordsDecode : Obligations.SampleWordsDecode := by
  unfold Obligations.SampleWordsDecode
  decide

end Sys2Proof

/-! What holds of every step (spec/10_state.md R26, R27, R30, spec/20_memory.md R71): the
invariants, the lines that stay valid, the accesses counted, and the faults that stay. Each is read
off what exec and a step can do. -/

namespace Sys2Proof.Machine

/-- Everything a next state of a step can be: the MemoryFault of a fetch beyond memory; or, after
the fetch's one read, IllegalOpcode or a next state of exec (R120 to R122). -/
theorem next_of_step {s t : State} (h : step s = .next t) :
    (¬ s.pc.toNat < memWords ∧ t = takeFault .memoryFault (s.setMar s.pc)) ∨
    (s.pc.toNat < memWords ∧ ∃ w u, Reads 1 s u ∧
      (t = takeFault .illegalOpcode (fetched s u w) ∨ ∃ i, exec i (fetched s u w) = .next t)) := by
  rcases step_cases s with ⟨hpc, hstep⟩ | ⟨hpc, w, u, hread, -, -, -, hstep⟩
  · rw [hstep] at h
    cases h
    exact .inl ⟨hpc, rfl⟩
  · refine .inr ⟨hpc, w, u, hread, ?_⟩
    rw [hstep] at h
    rcases decodeExecute_cases (fetched s u w) with ⟨op, -, hillegal⟩ | ⟨i, -, hexec⟩
    · rw [hillegal] at h
      cases h
      exact .inl rfl
    · exact .inr ⟨i, hexec ▸ h⟩

/-! ## The invariants (R30) -/

theorem State.Inv.memory {s : State} (h : s.Inv) : s.mem.wf := h.1

theorem State.Inv.coherent {s : State} (h : s.Inv) : s.coherent := h.2.2

/-- The invariants speak of memory and cache alone. -/
theorem State.Inv.of_eq {s t : State} (hs : s.Inv) (hmem : t.mem = s.mem)
    (hcache : t.cache = s.cache) : t.Inv := by
  simpa only [State.Inv, State.coherent, hmem, hcache] using hs

theorem MemoryFaultFrom.mem {s t : State} (h : MemoryFaultFrom s t) : t.mem = s.mem := by
  rw [h]

/-- Executing an instruction keeps the invariants. -/
theorem exec_inv {i : Instr} {s t : State} (h : exec i s = .next t) (hs : s.Inv) : t.Inv := by
  cases exec_effect h with
  | own n u _ _ reads effect => exact (reads.inv hs).of_eq effect.mem effect.cache
  | fault n u _ _ reads hf hc => exact (reads.inv hs).of_eq hf.mem hc
  | store n u e v _ _ _ reads he hw => exact memWrite_inv he hw (reads.inv hs)

/-- Settles O49: the fetch, an instruction and a fault each keep the invariants. -/
theorem stepKeepsTheInvariants : Obligations.StepKeepsTheInvariants := by
  intro s t hs h
  rcases next_of_step h with ⟨-, rfl⟩ | ⟨-, w, u, hread, rfl | ⟨i, hexec⟩⟩
  · exact hs
  · exact hread.inv hs
  · exact exec_inv hexec (hread.inv hs)

/-! ## Lines that stay valid, accesses counted (R30 (d), R71) -/

/-- A write that succeeds counts one access and loses no valid line. -/
theorem memWrite_count_valid {a : Nat} {v : Word} {s t : State} (h : a < memWords)
    (ht : memWrite a v s = .done () t) :
    t.cache.accesses = s.cache.accesses + 1 ∧
      ∀ i : Fin 16, (s.cache.lines[i]).isSome → (t.cache.lines[i]).isSome := by
  obtain ⟨u, hu, -, -, -, hcount, hvalid⟩ := memWrite_done v s h
  cases hu.symm.trans ht
  exact ⟨hcount, hvalid⟩

/-- Executing an instruction counts at most two accesses and loses no valid line. -/
theorem exec_count_valid {i : Instr} {s t : State} (h : exec i s = .next t) :
    s.cache.accesses ≤ t.cache.accesses ∧ t.cache.accesses ≤ s.cache.accesses + 2 ∧
      ∀ i : Fin 16, (s.cache.lines[i]).isSome → (t.cache.lines[i]).isSome := by
  cases exec_effect h with
  | own n u hn _ reads effect =>
    rw [effect.cache, reads.count]
    exact ⟨by omega, by omega, reads.valid⟩
  | fault n u hn _ reads hf hc =>
    rw [hc, reads.count]
    exact ⟨by omega, by omega, reads.valid⟩
  | store n u e v hn _ _ reads he hw =>
    obtain ⟨hcount, hvalid⟩ := memWrite_count_valid he hw
    rw [hcount, reads.count]
    exact ⟨by omega, by omega, fun j hj => hvalid j (reads.valid j hj)⟩

/-- Settles O52: no access, the fetch's or an instruction's, loses a valid line. -/
theorem validLinesStayValid : Obligations.ValidLinesStayValid := by
  intro s t i h hi
  rcases next_of_step h with ⟨-, rfl⟩ | ⟨-, w, u, hread, rfl | ⟨j, hexec⟩⟩
  · exact hi
  · exact hread.valid i hi
  · obtain ⟨-, -, hvalid⟩ := exec_count_valid hexec
    exact hvalid i (hread.valid i hi)

/-- Settles O53: one access for the fetch and at most two for the instruction. -/
theorem stepCountsAtMostThreeAccesses : Obligations.StepCountsAtMostThreeAccesses := by
  intro s t h
  rcases next_of_step h with ⟨hpc, rfl⟩ | ⟨hpc, w, u, hread, rfl | ⟨i, hexec⟩⟩
  · exact ⟨le_rfl, Nat.le_add_right _ _, fun hin => absurd hin hpc, fun _ => rfl⟩
  · have hcount : (takeFault .illegalOpcode (fetched s u w)).cache.accesses =
        s.cache.accesses + 1 := hread.count
    omega
  · obtain ⟨hle, hge, -⟩ := exec_count_valid hexec
    have hcount : (fetched s u w).cache.accesses = s.cache.accesses + 1 := hread.count
    omega

/-! ## Faults that stay (R26, R27) -/

/-- MFR and halted from `s` to `t`: MFR stays and halted is not cleared, or one fault is taken. -/
def FaultsKept (s t : State) : Prop :=
  (t.mfr = s.mfr ∧ (s.halted = true → t.halted = true)) ∨
  ∃ f, t.mfr = s.mfr ||| bitMask (faultBit s.cfg f) ∧ t.halted = true

theorem FaultsKept.of_same {s u t : State} (h : FaultsKept u t) (hmfr : u.mfr = s.mfr)
    (hhalted : u.halted = s.halted) (hcfg : u.cfg = s.cfg) : FaultsKept s t := by
  simpa only [FaultsKept, hmfr, hhalted, hcfg] using h

/-- The fields a read leaves alone that a fault speaks of. -/
theorem Reads.fault_fields {n : Nat} {s t : State} (h : Reads n s t) :
    t.mfr = s.mfr ∧ t.halted = s.halted ∧ t.cfg = s.cfg := by
  rw [h.same]
  exact ⟨rfl, rfl, rfl⟩

theorem memWrite_fault_fields {a : Nat} {v : Word} {s t : State} (h : a < memWords)
    (ht : memWrite a v s = .done () t) : t.mfr = s.mfr ∧ t.halted = s.halted := by
  obtain ⟨u, hu, hsame, -⟩ := memWrite_done v s h
  cases hu.symm.trans ht
  rw [hsame]
  exact ⟨rfl, rfl⟩

theorem exec_faultsKept {i : Instr} {s t : State} (h : exec i s = .next t) : FaultsKept s t := by
  suffices hu : ∃ n u, Reads n s u ∧ FaultsKept u t by
    obtain ⟨n, u, reads, hkept⟩ := hu
    obtain ⟨hmfr, hhalted, hcfg⟩ := reads.fault_fields
    exact hkept.of_same hmfr hhalted hcfg
  cases exec_effect h with
  | own n u _ _ reads effect => exact ⟨n, u, reads, .inl ⟨effect.mfr, effect.halted_mono⟩⟩
  | fault n u _ _ reads hf _ =>
    rw [MemoryFaultFrom] at hf
    exact ⟨n, u, reads, .inr ⟨.memoryFault, by rw [hf]; rfl, by rw [hf]⟩⟩
  | store n u e v _ _ _ reads he hw =>
    obtain ⟨hmfr, hhalted⟩ := memWrite_fault_fields he hw
    exact ⟨n, u, reads, .inl ⟨hmfr, fun hu => hhalted.trans hu⟩⟩

theorem step_faultsKept {s t : State} (h : step s = .next t) : FaultsKept s t := by
  rcases next_of_step h with ⟨-, rfl⟩ | ⟨-, w, u, hread, htail⟩
  · exact .inr ⟨.memoryFault, rfl, rfl⟩
  · obtain ⟨hmfr, hhalted, hcfg⟩ := hread.fault_fields
    have hkept : FaultsKept (fetched s u w) t := by
      rcases htail with rfl | ⟨i, hexec⟩
      · exact .inr ⟨.illegalOpcode, rfl, rfl⟩
      · exact exec_faultsKept hexec
    exact hkept.of_same hmfr hhalted hcfg

/-- Settles O54: MFR changes by ORing in one fault's bit, and that halts. -/
theorem stepNeverClearsAFault : Obligations.StepNeverClearsAFault := by
  intro s t h
  rcases step_faultsKept h with ⟨hmfr, hhalted⟩ | ⟨f, hmfr, hhalted⟩
  · rw [hmfr]
    exact ⟨fun _ hj => hj, fun _ _ _ => rfl, hhalted, fun hne => absurd rfl hne⟩
  · have hbit (j : Fin 4) :
        t.mfr.getLsbD j = (s.mfr.getLsbD j || decide (faultBit s.cfg f = j)) := by
      simp [hmfr]
    refine ⟨fun j hj => by rw [hbit, hj, Bool.true_or], fun j hill hmem => ?_,
      fun _ => hhalted, fun _ => hhalted⟩
    have hne : faultBit s.cfg f ≠ j := by
      cases f
      · exact hill.symm
      · exact hmem.symm
    rw [hbit, decide_eq_false hne, Bool.or_false]

end Sys2Proof.Machine

/-! The cache is invisible to the program (spec/10_state.md R31). The idea: with the invariants a
word read is memory's whether or not it is resident, so twin states (alike but for the cache) make
the same accesses with the same answers, and every other operation is blind to the cache. -/

namespace Sys2Proof.Machine

/-! ## Twin states -/

/-- Two states that meet the invariants and are alike but for the cache. -/
structure Twins (s t : State) : Prop where
  left : s.Inv
  right : t.Inv
  same : SameButCache s t

theorem sameButCache_iff {s t : State} : SameButCache s t ↔ ∃ c, t = s.setCache c :=
  ⟨fun h => ⟨t.cache, h⟩, by rintro ⟨c, rfl⟩; rfl⟩

/-- The same answer from two runs: next states alike but for the cache, or the same refusal. -/
def SameOutcome (x y : Result) : Prop :=
  (∃ s t, x = .next s ∧ y = .next t ∧ SameButCache s t) ∨ ∃ q, x = .refused q ∧ y = .refused q

/-- The same answer from two accesses: the same value from twin states, or a fault in each. -/
def SameAccess {α : Type} (x y : Access α) : Prop :=
  (∃ v s t, x = .done v s ∧ y = .done v t ∧ Twins s t) ∨
  ∃ s t, x = .stopped s ∧ y = .stopped t ∧ SameButCache s t

theorem SameOutcome.next {s t : State} (h : SameButCache s t) :
    SameOutcome (.next s) (.next t) := .inl ⟨s, t, rfl, rfl, h⟩

theorem SameOutcome.refused (q : Refusal) : SameOutcome (.refused q) (.refused q) :=
  .inr ⟨q, rfl, rfl⟩

theorem SameAccess.andThen {α : Type} {x y : Access α} {k : α → State → Result}
    (h : SameAccess x y) (hk : ∀ v s t, Twins s t → SameOutcome (k v s) (k v t)) :
    SameOutcome (x.andThen k) (y.andThen k) := by
  rcases h with ⟨v, s, t, rfl, rfl, hst⟩ | ⟨s, t, rfl, rfl, hst⟩
  · exact hk v s t hst
  · exact .inl ⟨s, t, rfl, rfl, hst⟩

/-- An operation blind to the cache takes twins to the same answer. -/
theorem Twins.outcome {k : State → Result} {s t : State} (h : Twins s t)
    (hk : ∀ c, SameOutcome (k s) (k (s.setCache c))) : SameOutcome (k s) (k t) := by
  obtain ⟨c, rfl⟩ := sameButCache_iff.1 h.same
  exact hk c

/-- A state function that commutes with replacing the cache takes twins to the same answer. -/
theorem Twins.next {f : State → State} {s t : State} (h : Twins s t)
    (hf : ∀ c, f (s.setCache c) = (f s).setCache c) : SameOutcome (.next (f s)) (.next (f t)) := by
  obtain ⟨c, rfl⟩ := sameButCache_iff.1 h.same
  exact .inl ⟨_, _, rfl, rfl, sameButCache_iff.2 ⟨c, hf c⟩⟩

/-! ## Accesses -/

/-- `MemRead` in range, the whole next state but the cache: the word read is memory's (R66, R68). -/
theorem memRead_inRange {a : Nat} {s : State} (hs : s.coherent) (ha : a < memWords) :
    ∃ t, memRead a s = .done (s.mem.readWord a) t ∧ Reads 1 s t ∧
      t = { s with mar := BitVec.ofNat 12 a, mbr := s.mem.readWord a, cache := t.cache } := by
  obtain ⟨v, t, hread, hreads, hmar, hmbr, hv⟩ := memRead_done s ha
  obtain rfl := hv hs
  refine ⟨t, hread, hreads, ?_⟩
  rw [← hmar, ← hmbr]
  exact hreads.same

theorem memRead_twins {s t : State} (h : Twins s t) (a : Nat) :
    SameAccess (memRead a s) (memRead a t) := by
  by_cases ha : a < memWords
  · obtain ⟨u, hu, hreads, hueq⟩ := memRead_inRange h.left.coherent ha
    obtain ⟨v, hv, hreads', hveq⟩ := memRead_inRange h.right.coherent ha
    obtain ⟨c, rfl⟩ := sameButCache_iff.1 h.same
    refine .inl ⟨_, u, v, hu, hv, hreads.inv h.left, hreads'.inv h.right, ?_⟩
    exact hveq.trans (by rw [hueq]; rfl)
  · obtain ⟨c, rfl⟩ := sameButCache_iff.1 h.same
    exact .inr ⟨_, _, memRead_stopped s ha, memRead_stopped _ ha, rfl⟩

theorem memWrite_twins {s t : State} (h : Twins s t) (a : Nat) (v : Word) :
    SameAccess (memWrite a v s) (memWrite a v t) := by
  by_cases ha : a < memWords
  · obtain ⟨u, hu, hueq, -⟩ := memWrite_done v s ha
    obtain ⟨w, hw, hweq, -⟩ := memWrite_done v t ha
    refine .inl ⟨(), u, w, hu, hw, memWrite_inv ha hu h.left, memWrite_inv ha hw h.right, ?_⟩
    obtain ⟨c, rfl⟩ := sameButCache_iff.1 h.same
    exact hweq.trans (by rw [hueq]; rfl)
  · obtain ⟨c, rfl⟩ := sameButCache_iff.1 h.same
    exact .inr ⟨_, _, memWrite_stopped v s ha, memWrite_stopped v _ ha, rfl⟩

theorem effectiveAddress_twins {s t : State} (h : Twins s t) (a : AddrOperand) :
    SameAccess (effectiveAddress a s) (effectiveAddress a t) := by
  have haddr : indexedAddress a t = indexedAddress a s := by
    obtain ⟨c, rfl⟩ := sameButCache_iff.1 h.same
    rfl
  unfold effectiveAddress
  rw [haddr]
  split
  · rcases memRead_twins h (indexedAddress a s) with ⟨w, u, v, hu, hv, huv⟩ | ⟨u, v, hu, hv, huv⟩
    · rw [hu, hv]
      exact .inl ⟨_, u, v, rfl, rfl, huv⟩
    · rw [hu, hv]
      exact .inr ⟨u, v, rfl, rfl, huv⟩
  · exact .inl ⟨_, s, t, rfl, rfl, h⟩

theorem fetch_twins {s t : State} (h : Twins s t) : SameAccess (fetch s) (fetch t) := by
  have hpc : t.pc = s.pc := by rw [h.same]
  unfold fetch
  rw [hpc]
  rcases memRead_twins h s.pc.toNat with ⟨w, u, v, hu, hv, huv⟩ | ⟨u, v, hu, hv, huv⟩
  · rw [hu, hv]
    refine .inl ⟨w, _, _, rfl, rfl, huv.left, huv.right, ?_⟩
    obtain ⟨c, rfl⟩ := sameButCache_iff.1 huv.same
    rfl
  · rw [hu, hv]
    exact .inr ⟨u, v, rfl, rfl, huv⟩

/-! ## Instructions -/

theorem jumpIf_setCache (b : Bool) (e : Nat) (s : State) (c : Cache) :
    jumpIf b e (s.setCache c) = (jumpIf b e s).setCache c := by
  cases b <;> rfl

theorem divZeroPolicy_setCache (s : State) (c : Cache) :
    divZeroPolicy (s.setCache c) = (divZeroPolicy s).setCache c := by
  have hcfg : (s.setCache c).cfg = s.cfg := rfl
  unfold divZeroPolicy
  rw [hcfg]
  cases s.cfg.dzPolicy <;> rfl

theorem execInp_setCache (r : Reg) (d : BitVec 5) (s : State) (c : Cache) :
    SameOutcome (execInp r d s) (execInp r d (s.setCache c)) := by
  have hin : (s.setCache c).consoleIn = s.consoleIn := rfl
  unfold execInp consolePoll
  rw [hin]
  split
  · rcases s.consoleIn with _ | ⟨_ | n, rest⟩ <;> exact .next rfl
  · exact .refused _

theorem execDvd_setCache (rx ry : Reg) (s : State) (c : Cache) :
    SameOutcome (execDvd rx ry s) (execDvd rx ry (s.setCache c)) := by
  unfold execDvd
  rw [State.getR_setCache, State.getR_setCache]
  split
  · split
    · exact .next (sameButCache_iff.2 ⟨c, divZeroPolicy_setCache (setDivZero true s) c⟩)
    · exact .next rfl
  · exact .refused _

/-- A computation blind to the cache on the word at EA (LDR, LDX, AMR, SMR). -/
theorem Twins.read {s t : State} (h : Twins s t) (a : AddrOperand) {f : Word → State → State}
    (hf : ∀ v u c, f v (u.setCache c) = (f v u).setCache c) :
    SameOutcome
      ((effectiveAddress a s).andThen fun e u => (memRead e u).andThen fun v w => .next (f v w))
      ((effectiveAddress a t).andThen fun e u => (memRead e u).andThen fun v w => .next (f v w)) :=
  (effectiveAddress_twins h a).andThen fun e _ _ hu =>
    (memRead_twins hu e).andThen fun v _ _ hw => hw.next (hf v _)

/-- A store at EA of a word blind to the cache (STR, STX). -/
theorem Twins.write {s t : State} (h : Twins s t) (a : AddrOperand) {f : State → Word}
    (hf : ∀ u c, f (u.setCache c) = f u) :
    SameOutcome
      ((effectiveAddress a s).andThen fun e u => (memWrite e (f u) u).andThen fun _ w => .next w)
      ((effectiveAddress a t).andThen fun e u =>
        (memWrite e (f u) u).andThen fun _ w => .next w) := by
  refine (effectiveAddress_twins h a).andThen fun e u v hu => ?_
  have hword : f v = f u := by
    obtain ⟨c, rfl⟩ := sameButCache_iff.1 hu.same
    exact hf u c
  rw [hword]
  exact (memWrite_twins hu e (f u)).andThen fun _ _ _ hw => hw.next (f := id) fun _ => rfl

/-- A computation blind to the cache on EA itself (LDA and the transfers). -/
theorem Twins.address {s t : State} (h : Twins s t) (a : AddrOperand) {f : Nat → State → State}
    (hf : ∀ e u c, f e (u.setCache c) = (f e u).setCache c) :
    SameOutcome ((effectiveAddress a s).andThen fun e u => .next (f e u))
      ((effectiveAddress a t).andThen fun e u => .next (f e u)) :=
  (effectiveAddress_twins h a).andThen fun e _ _ hu => hu.next (hf e _)

/-- Every instruction takes twins to the same answer. -/
theorem exec_twins {s t : State} (h : Twins s t) (i : Instr) :
    SameOutcome (exec i s) (exec i t) := by
  cases i with
  | ldr r a | amr r a | smr r a => exact h.read a fun _ _ _ => rfl
  | str r a => exact h.write a fun _ _ => rfl
  | lda r a | jma a | jsr a => exact h.address a fun _ _ _ => rfl
  | jz r a | jne r a | jcc r a => exact h.address a fun _ _ _ => jumpIf_setCache ..
  | sob r a =>
    exact h.address a fun e u c => jumpIf_setCache _ e (u.setR r (u.getR r - 1)) c
  | ldx x ind addr =>
    cases x with
    | none => exact .refused _
    | some k => exact h.read (noIndex ind addr) fun _ _ _ => rfl
  | stx x ind addr =>
    cases x with
    | none => exact .refused _
    | some k => exact h.write (noIndex ind addr) fun _ _ => rfl
  | inp r d => exact h.outcome (execInp_setCache r d s)
  | out r d =>
    refine h.outcome fun c => ?_
    simp only [exec, execOut]
    split
    · exact .next rfl
    · exact .refused _
  | mlt rx ry =>
    refine h.outcome fun c => ?_
    simp only [exec, execMlt]
    split
    · exact .next rfl
    · exact .refused _
  | dvd rx ry => exact h.outcome (execDvd_setCache rx ry s)
  | hlt | air | sir | rfs | src | rrc | trr | and | orr | not => exact h.outcome fun _ => .next rfl

theorem decodeExecute_twins {s t : State} (h : Twins s t) :
    SameOutcome (decodeExecute s) (decodeExecute t) := by
  have hdecode : decode t.cfg.opmap t.ir = decode s.cfg.opmap s.ir := by rw [h.same]
  unfold decodeExecute
  rw [hdecode]
  split
  · exact exec_twins h _
  · exact h.next fun _ => rfl

/-- Settles O51: the fetch and the instruction each take twins to the same answer. -/
theorem cacheIsInvisibleToTheProgram : Obligations.CacheIsInvisibleToTheProgram :=
  fun _ _ hs ht hsame =>
    (fetch_twins ⟨hs, ht, hsame⟩).andThen fun _ _ _ hst => decodeExecute_twins hst

end Sys2Proof.Machine

/-! The cycle (spec/40_cycle_ea_halt.md R120 to R122, spec/60_exceptions.md R201, R202), which
instructions complete (spec/30_encoding.md R101), and the state at power-on (spec/10_state.md R38,
R39). -/

namespace Sys2Proof.Machine

/-! ## The fetch (R121) -/

/-- The state a fetch inside memory leaves, by its fields, and that it meets the invariants. -/
theorem fetched_eq {s u : State} (h : Reads 1 s u) (hmar : u.mar = s.pc)
    (hmbr : u.mbr = s.mem.readWord s.pc.toNat) :
    fetched s u (s.mem.readWord s.pc.toNat) = { s with
      ir := s.mem.readWord s.pc.toNat, pc := s.pc + 1, mar := s.pc,
      mbr := s.mem.readWord s.pc.toNat, cache := u.cache } := by
  have hsame : SameButAccess s u := h.same
  rw [SameButAccess, hmar, hmbr] at hsame
  rw [hsame]
  rfl

/-- Settles O7: the fetch's read answers memory's word. -/
theorem stepRunsTheDecodedInstruction : Obligations.StepRunsTheDecodedInstruction := by
  intro s i hs hpc hi
  obtain ⟨u, hread, hmar, hmbr, hstep⟩ := step_of_decode hs.coherent hpc hi
  exact ⟨_, hstep, hread.inv hs, fetched_eq hread hmar hmbr⟩

/-- Settles O8: the fetch stops before IR, PC and the cache are touched. -/
theorem fetchBeyondMemoryFaults : Obligations.FetchBeyondMemoryFaults := by
  intro s hpc
  rcases step_cases s with ⟨-, hstep⟩ | ⟨hin, -⟩
  · exact hstep
  · exact absurd hin (Nat.not_lt.2 hpc)

/-- Settles O9: the word fetched does not decode, and IllegalOpcode is taken. -/
theorem illegalOpcodeIsTaken : Obligations.IllegalOpcodeIsTaken := by
  intro s op hs hpc hop
  rcases step_cases s with ⟨hout, -⟩ | ⟨-, w, u, hread, hmar, hmbr, hw, hstep⟩
  · exact absurd hpc hout
  · obtain rfl := hw hs.coherent
    have heq := fetched_eq hread hmar hmbr
    rcases decodeExecute_cases (fetched s u (s.mem.readWord s.pc.toNat)) with
      ⟨_, -, htaken⟩ | ⟨i, hi, -⟩
    · refine ⟨_, hstep.trans htaken, ?_⟩
      rw [heq]
      rfl
    · rw [heq] at hi
      cases hop.symm.trans hi

/-! ## Which instructions complete (R101) -/

/-- An instruction with a meaning answers a next state: an access that stops is one too (R10). -/
theorem exec_next_of_wf {i : Instr} (h : i.wf = true) (s : State) : ∃ t, exec i s = .next t := by
  cases i with
  | hlt | air | sir | rfs | src | rrc | trr | and | orr | not => exact ⟨_, rfl⟩
  | lda | jz | jne | jcc | jma | jsr | sob => exact Access.andThen_next fun _ _ => ⟨_, rfl⟩
  | ldr | str | amr | smr =>
    exact Access.andThen_next fun _ _ => Access.andThen_next fun _ _ => ⟨_, rfl⟩
  | ldx x | stx x =>
    cases x with
    | none => cases h
    | some k => exact Access.andThen_next fun _ _ => Access.andThen_next fun _ _ => ⟨_, rfl⟩
  | inp r d =>
    obtain rfl : d = 0 := by simpa [Instr.wf] using h
    simp only [exec, execInp, consolePoll]
    rcases s.consoleIn with _ | ⟨_ | n, rest⟩ <;> exact ⟨_, rfl⟩
  | out r d =>
    obtain rfl : d = 1 := by simpa [Instr.wf] using h
    exact ⟨_, rfl⟩
  | mlt rx ry => exact ⟨_, if_pos h⟩
  | dvd rx ry =>
    simp only [exec, execDvd, show evenPair rx ry = true from h, if_true]
    split <;> exact ⟨_, rfl⟩

theorem exec_odd {rx ry : Reg} (h : evenPair rx ry = false) (s : State) :
    exec (.mlt rx ry) s = .refused .oddRegister ∧ exec (.dvd rx ry) s = .refused .oddRegister := by
  simp [exec, execMlt, execDvd, h]

theorem exec_inp_refused {d : BitVec 5} (h : d ≠ 0) (r : Reg) (s : State) :
    exec (.inp r d) s = .refused .unknownDevice := if_neg h

theorem exec_out_refused {d : BitVec 5} (h : d ≠ 1) (r : Reg) (s : State) :
    exec (.out r d) s = .refused .unknownDevice := if_neg h

/-- An instruction without a meaning is refused (R101). -/
theorem exec_refused_of_not_wf {i : Instr} (h : i.wf = false) (s : State) :
    ∃ q, exec i s = .refused q := by
  cases i with
  | ldx x | stx x =>
    cases x with
    | none => exact ⟨_, rfl⟩
    | some k => cases h
  | inp r d => exact ⟨_, exec_inp_refused (by simpa [Instr.wf] using h) r s⟩
  | out r d => exact ⟨_, exec_out_refused (by simpa [Instr.wf] using h) r s⟩
  | mlt rx ry => exact ⟨_, (exec_odd h s).1⟩
  | dvd rx ry => exact ⟨_, (exec_odd h s).2⟩
  | _ => cases h

/-- Settles O11: each instruction by its class; the refusals by their tests. -/
theorem wellFormedCompletesIllFormedIsRefused :
    Obligations.WellFormedCompletesIllFormedIsRefused := by
  refine ⟨fun i s h => exec_next_of_wf h s, fun _ _ _ => ⟨rfl, rfl⟩, fun rx ry s h => ?_,
    fun r d s => ⟨fun h => exec_inp_refused h r s, fun h => exec_out_refused h r s⟩⟩
  refine exec_odd ?_ s
  revert rx ry
  decide

theorem exec_ne_fault (i : Instr) (s : State) (f : Fault) : exec i s ≠ .fault f := by
  cases h : i.wf with
  | true =>
    obtain ⟨t, ht⟩ := exec_next_of_wf h s
    simp [ht]
  | false =>
    obtain ⟨q, hq⟩ := exec_refused_of_not_wf h s
    simp [hq]

theorem step_ne_fault (s : State) (f : Fault) : step s ≠ .fault f := by
  rcases step_cases s with ⟨-, hstep⟩ | ⟨-, w, u, -, -, -, -, hstep⟩
  · simp [hstep]
  · rw [hstep]
    rcases decodeExecute_cases (fetched s u w) with ⟨_, -, hrun⟩ | ⟨i, -, hrun⟩
    · simp [hrun]
    · rw [hrun]
      exact exec_ne_fault i _ f

/-- A step answers a next state unless it runs one of the refused encodings. -/
theorem step_next {s : State} (hs : s.Inv)
    (h : ∀ i, s.pc.toNat < memWords →
      decode s.cfg.opmap (s.mem.readWord s.pc.toNat) = .ok i → i.wf = true) :
    ∃ t, step s = .next t := by
  by_cases hpc : s.pc.toNat < memWords
  · cases hd : decode s.cfg.opmap (s.mem.readWord s.pc.toNat) with
    | ok i =>
      obtain ⟨u, -, -, -, hstep⟩ := step_of_decode hs.coherent hpc hd
      rw [hstep]
      exact exec_next_of_wf (h i hpc hd) _
    | illegalOpcode op =>
      obtain ⟨t, ht, -⟩ := illegalOpcodeIsTaken s op hs hpc hd
      exact ⟨t, ht⟩
  · exact ⟨_, fetchBeyondMemoryFaults s (Nat.not_lt.1 hpc)⟩

/-- Settles O10: instructions answer a next state or a refusal, never a fault. -/
theorem stepNeverEndsInAFault : Obligations.StepNeverEndsInAFault :=
  ⟨step_ne_fault, fun _ hs h => step_next hs h⟩

/-! ## Power-on (R38, R39) -/

theorem reset_inv : State.reset.Inv :=
  ⟨by decide, Cache.wf_empty, Cache.matches_empty _⟩

/-- Settles O50, field by field. -/
theorem resetIsZeroAndMeetsTheInvariants : Obligations.ResetIsZeroAndMeetsTheInvariants := by
  refine ⟨reset_inv, by decide, by decide, fun k => ?_, rfl, rfl, rfl, rfl, rfl, rfl, rfl,
    fun _ => show (0#8 ++ 0#8 : Word) = 0 by decide, Cache.lines_empty, rfl, rfl, rfl⟩
  cases k <;> rfl

end Sys2Proof.Machine

/-! Memory accesses and effective addresses (spec/20_memory.md R66 to R68, spec/40_cycle_ea_halt.md
R124 to R128), and loads and stores (spec/41_load_store.md R140 to R144). -/

namespace Sys2Proof.Machine

/-- A read's next state, by the setters. -/
theorem sameButAccess_iff {s t : State} :
    SameButAccess s t ↔ ∃ a w c, t = ((s.setMar a).setMbr w).setCache c :=
  ⟨fun h => ⟨t.mar, t.mbr, t.cache, h⟩, by rintro ⟨a, w, c, rfl⟩; rfl⟩

theorem SameButAccess.getR {s t : State} (h : SameButAccess s t) (r : Reg) :
    t.getR r = s.getR r := by
  rw [h]
  rfl

theorem SameButAccess.getX {s t : State} (h : SameButAccess s t) (k : XReg) :
    t.getX k = s.getX k := by
  rw [h]
  rfl

/-! ## Residence after an access (R60, R61) -/

theorem cacheRead_of_memRead {a : Nat} {v : Word} {s t : State} (h : memRead a s = .done v t) :
    cacheRead a s.mem s.cache = .ok (v, t.cache) := by
  unfold memRead at h
  split at h
  · next hread => cases h; exact hread
  · cases h

theorem memRead_resident {a : Nat} {v : Word} {s t : State} (h : memRead a s = .done v t) :
    t.cache.resident a := by
  obtain ⟨-, i, l, hl, -⟩ := lookup_of_cacheRead (cacheRead_of_memRead h)
  exact ⟨i, l, Cache.lookup_some hl⟩

theorem cacheWrite_resident {a : Nat} {v : Word} {m m' : Memory} {c c' : Cache}
    (ha : a < memWords) (h : cacheWrite a v m c = .ok (m', c')) : c'.resident a := by
  rcases hl : c.lookup a with _ | ⟨i, l⟩
  · rw [cacheWrite_miss ha hl] at h
    cases h
    exact ⟨c.slot, _, (Cache.lines_install c a v c.slot).trans (if_pos rfl), rfl⟩
  · rw [cacheWrite_hit ha hl] at h
    cases h
    exact ⟨i, _, (Cache.lines_update c i l v i).trans (if_pos rfl), (Cache.lookup_some hl).2⟩

theorem memWrite_resident {a : Nat} {v : Word} {s t : State} (ha : a < memWords)
    (h : memWrite a v s = .done () t) : t.cache.resident a := by
  unfold memWrite at h
  split at h
  · next hwrite => cases h; exact cacheWrite_resident ha hwrite
  · cases h

/-- Settles O56: in range by the laws of one access, out of range by the fault's own fields. -/
theorem cacheIsTransparent : Obligations.CacheIsTransparent := by
  refine ⟨fun s a v hs ha => ⟨?_, ?_⟩, fun s a v ha => ⟨?_, ?_⟩⟩
  · obtain ⟨t, hread, hreads, heq⟩ := memRead_inRange hs.coherent ha
    exact ⟨t, hread, hreads.inv hs, memRead_resident hread, heq⟩
  · obtain ⟨t, hwrite, heq, -⟩ := memWrite_done v s ha
    refine ⟨t, hwrite, memWrite_inv ha hwrite hs, memWrite_resident ha hwrite, fun b => ?_, ?_⟩
    · have hmem : t.mem = s.mem.writeWord a v := by rw [heq]
      rw [hmem, Memory.readWord_writeWord hs.memory]
      simp only [eq_comm]
    · rw [heq]
  · exact ⟨_, memRead_stopped s (Nat.not_lt.2 ha), rfl, rfl, BitVec.toNat_ofNat ..⟩
  · exact ⟨_, memWrite_stopped v s (Nat.not_lt.2 ha), rfl, rfl, BitVec.toNat_ofNat ..⟩

/-! ## Effective addresses (R124 to R127) -/

theorem eaOnMemory_direct (ix : Option XReg) (addr : BitVec 5) (s : State) :
    eaOnMemory ⟨ix, false, addr⟩ s = some (addr.toNat + indexValue ix s) := rfl

theorem eaOnMemory_indirect (ix : Option XReg) (addr : BitVec 5) (s : State) :
    eaOnMemory ⟨ix, true, addr⟩ s =
      if addr.toNat + indexValue ix s < memWords then
        some (s.mem.readWord (addr.toNat + indexValue ix s)).toNat
      else none := rfl

theorem effectiveAddress_indirect {a : AddrOperand} {s t : State} {w : Word}
    (h : a.indirect = true) (hread : memRead (indexedAddress a s) s = .done w t) :
    effectiveAddress a s = .done w.toNat t := by
  unfold effectiveAddress
  rw [if_pos h, hread]

/-- Settles O13: what EA() can do, and the unsigned sum. -/
theorem effectiveAddressReadsMemory : Obligations.EffectiveAddressReadsMemory := by
  refine ⟨fun a s hs => ⟨fun e he => ?_, fun hnone => effectiveAddress_stopped hnone⟩,
    fun ix addr s n hn => ?_⟩
  · obtain ⟨t, n, hdone, -, hreads⟩ := effectiveAddress_done hs.coherent he
    exact ⟨t, hdone, hreads.same, hreads.inv hs⟩
  · obtain rfl : n = addr.toNat + indexValue ix s := by
      rcases hn with ⟨rfl, rfl⟩ | ⟨k, rfl, rfl⟩ <;> rfl
    rw [eaOnMemory_direct, eaOnMemory_indirect]
    exact ⟨rfl, rfl, fun hle => if_pos (Nat.lt_succ_of_le hle),
      fun hlt => if_neg (Nat.not_lt.2 hlt)⟩

/-- Settles O14: the address of the indirect read is the 5-bit field, always in memory. -/
theorem effectiveAddressWithoutIndex : Obligations.EffectiveAddressWithoutIndex := by
  rintro ind addr s
  refine ⟨by rintro rfl; rfl, ?_⟩
  rintro rfl
  have haddr : addr.toNat < memWords := Nat.lt_trans addr.isLt (by decide)
  obtain ⟨w, t, hread, hreads, -, -, hw⟩ := memRead_done s haddr
  exact ⟨w, t, hread, hreads.same, effectiveAddress_indirect rfl hread, fun hs => hw hs.coherent⟩

/-! ## Going on after EA(), by the address on memory -/

/-- The rest of an instruction runs on EA, after at most one read. -/
theorem andThen_effectiveAddress {a : AddrOperand} {s : State} {e : Nat} (hs : s.coherent)
    (h : eaOnMemory a s = some e) :
    ∃ u, (∃ n, Reads n s u) ∧
      ∀ k : Nat → State → Result, (effectiveAddress a s).andThen k = k e u := by
  obtain ⟨u, n, hdone, -, hreads⟩ := effectiveAddress_done hs h
  exact ⟨u, ⟨n, hreads⟩, fun k => by rw [hdone]; rfl⟩

/-- The rest of an instruction runs on the word at EA. -/
theorem andThen_operand {a : AddrOperand} {s : State} {e : Nat} (hs : s.coherent)
    (h : eaOnMemory a s = some e) (he : e < memWords) :
    ∃ u, SameButAccess s u ∧ ∀ k : Word → State → Result,
      ((effectiveAddress a s).andThen fun e t => (memRead e t).andThen k) =
        k (s.mem.readWord e) u := by
  obtain ⟨t, ⟨n, hreads⟩, hk⟩ := andThen_effectiveAddress hs h
  obtain ⟨u, hread, hreads', -⟩ := memRead_inRange (hreads.coherent hs) he
  refine ⟨u, hreads.same.trans hreads'.same, fun k => ?_⟩
  rw [hk, hread, hreads.mem]
  rfl

/-- An operand access out of range ends the instruction in the MemoryFault, read or write. -/
theorem andThen_operand_stopped {a : AddrOperand} {s : State} {e : Nat} (hs : s.coherent)
    (h : eaOnMemory a s = some e) (he : memWords ≤ e) :
    ∃ t, MemoryFaultFrom s t ∧
      (∀ k : Word → State → Result,
        ((effectiveAddress a s).andThen fun e t => (memRead e t).andThen k) = .next t) ∧
      ∀ (v : State → Word) (k : Unit → State → Result),
        ((effectiveAddress a s).andThen fun e t => (memWrite e (v t) t).andThen k) = .next t := by
  obtain ⟨u, ⟨n, hreads⟩, hk⟩ := andThen_effectiveAddress hs h
  have hout : ¬ e < memWords := Nat.not_lt.2 he
  refine ⟨_, hreads.same.fault (memoryFaultFrom_takeFault u (BitVec.ofNat 12 e)), fun k => ?_,
    fun v k => ?_⟩
  · rw [hk, memRead_stopped u hout]
    rfl
  · rw [hk, memWrite_stopped _ u hout]
    rfl

/-- An indirect read out of range ends the instruction in the MemoryFault. -/
theorem andThen_effectiveAddress_stopped {a : AddrOperand} {s : State} (h : eaOnMemory a s = none) :
    ∃ t, MemoryFaultFrom s t ∧
      ∀ k : Nat → State → Result, (effectiveAddress a s).andThen k = .next t := by
  obtain ⟨t, hstop, hfault⟩ := effectiveAddress_stopped h
  exact ⟨t, hfault, fun k => by rw [hstop]; rfl⟩

/-- Settles O15: whatever the instruction would do with the word, the access stops it. -/
theorem operandOutsideMemoryFaults : Obligations.OperandOutsideMemoryFaults := by
  constructor
  · intro r a s e hs h he i hi
    obtain ⟨t, hfault, hread, hwrite⟩ := andThen_operand_stopped hs.coherent h he
    simp only [List.mem_cons, List.not_mem_nil, or_false] at hi
    rcases hi with rfl | rfl | rfl | rfl
    case inr.inl => exact ⟨t, hwrite _ _, hfault⟩
    all_goals exact ⟨t, hread _, hfault⟩
  · intro k ind addr s e hs h he i hi
    obtain ⟨t, hfault, hread, hwrite⟩ := andThen_operand_stopped hs.coherent h he
    simp only [List.mem_cons, List.not_mem_nil, or_false] at hi
    rcases hi with rfl | rfl
    · exact ⟨t, hread _, hfault⟩
    · exact ⟨t, hwrite _ _, hfault⟩

/-- Settles O16: every one of these instructions computes EA first. -/
theorem indirectReadOutsideMemoryFaults : Obligations.IndirectReadOutsideMemoryFaults := by
  intro r c a s _ h i hi
  obtain ⟨t, hfault, hstop⟩ := andThen_effectiveAddress_stopped h
  simp only [List.mem_cons, List.not_mem_nil, or_false] at hi
  rcases hi with rfl | rfl | rfl | rfl | rfl | rfl | rfl | rfl | rfl | rfl | rfl <;>
    exact ⟨t, hstop _, hfault⟩

/-! ## Loads (R140, R142, R143) -/

/-- Settles O17: the word at EA, then one register write. -/
theorem ldrLoadsTheWordAtEa : Obligations.LdrLoadsTheWordAtEa := by
  intro r a s e hs h he
  obtain ⟨u, hsame, hk⟩ := andThen_operand hs.coherent h he
  obtain ⟨m, w, c, rfl⟩ := sameButAccess_iff.1 hsame
  exact ⟨_, hk _, by simp, fun q hq => State.getR_setR_ne hq, rfl⟩

/-- Settles O19: EA, then one register write, which truncates. -/
theorem ldaLoadsEaItself : Obligations.LdaLoadsEaItself := by
  intro r a s e hs h
  obtain ⟨u, ⟨n, hreads⟩, hk⟩ := andThen_effectiveAddress hs.coherent h
  obtain ⟨m, w, c, rfl⟩ := sameButAccess_iff.1 hreads.same
  exact ⟨_, hk _, by simp, fun q hq => State.getR_setR_ne hq, rfl⟩

/-- Settles O20: the word at the unindexed EA, then one index register write. -/
theorem ldxLoadsTheIndexRegister : Obligations.LdxLoadsTheIndexRegister := by
  intro k ind addr s e hs h he
  obtain ⟨u, hsame, hk⟩ := andThen_operand hs.coherent h he
  obtain ⟨m, w, c, rfl⟩ := sameButAccess_iff.1 hsame
  refine ⟨_, hk _, by simp, fun j hj => ?_, rfl⟩
  rw [State.getX_setX, if_neg hj.symm]
  rfl

/-! ## Stores (R141, R144) -/

/-- The address EA() answers is reached by reads alone. -/
theorem reads_of_effectiveAddress {a : AddrOperand} {s u : State} {e : Nat}
    (h : effectiveAddress a s = .done e u) : ∃ n, Reads n s u := by
  rcases effectiveAddress_cases a s with ⟨e', u', n, hdone, -, hreads, -⟩ | ⟨u', hstop, -⟩
  · cases hdone.symm.trans h
    exact ⟨n, hreads⟩
  · cases hstop.symm.trans h

/-- What a word write leaves at the word and at every other cell. -/
theorem Memory.writeWord_spec {m : Memory} (h : m.wf) (e : Nat) (v : Word) :
    (m.writeWord e v).readWord e = v ∧
      ∀ b, b ≠ 2 * e → b ≠ 2 * e + 1 → (m.writeWord e v).readByte b = m.readByte b := by
  refine ⟨by rw [Memory.readWord_writeWord h, if_pos rfl], fun b h0 h1 => ?_⟩
  rw [Memory.readByte_writeWord h, if_neg h0, if_neg h1]

/-- A store in range: the word at the address is replaced, every other cell is as before, and
besides only MAR, MBR and the cache change. -/
theorem store_inRange {a : AddrOperand} {s u : State} {e : Nat} {v : State → Word} (hs : s.mem.wf)
    (h : effectiveAddress a s = .done e u) (he : e < memWords)
    (hv : ∀ t, SameButAccess s t → v t = v s) :
    ∃ t, ((effectiveAddress a s).andThen fun e t =>
        (memWrite e (v t) t).andThen fun _ w => .next w) = .next t ∧
      t.mem.readWord e = v s ∧
      (∀ b, b ≠ 2 * e → b ≠ 2 * e + 1 → t.mem.readByte b = s.mem.readByte b) ∧
      t = { s with mem := t.mem, mar := t.mar, mbr := t.mbr, cache := t.cache } := by
  obtain ⟨n, hreads⟩ := reads_of_effectiveAddress h
  have hsame : SameButAccess s u := hreads.same
  obtain ⟨t, hwrite, heq, -⟩ := memWrite_done (v u) u he
  have hmem : t.mem = s.mem.writeWord e (v s) := by rw [heq, hv u hsame, ← hreads.mem]
  obtain ⟨hword, hrest⟩ := Memory.writeWord_spec hs e (v s)
  refine ⟨t, ?_, hmem ▸ hword, hmem ▸ hrest, ?_⟩
  · rw [h, Access.andThen_done, hwrite]
    rfl
  · rw [SameButAccess] at hsame
    rw [heq, hsame]

/-- Settles O18: a store of R[r] at EA. -/
theorem strStoresTheRegisterAtEa : Obligations.StrStoresTheRegisterAtEa := by
  intro r a s u e hs h he
  exact store_inRange (v := fun t => t.getR r) hs.memory h he fun t ht => ht.getR r

/-- Settles O21: a store of X[x] at the unindexed EA. -/
theorem stxStoresTheIndexRegister : Obligations.StxStoresTheIndexRegister := by
  intro k ind addr s u e hs h he
  exact store_inRange (v := fun t => t.getX k) hs.memory h he fun t ht => ht.getX k

end Sys2Proof.Machine

/-! Arithmetic (spec/42_arithmetic.md R150 to R154): the exact result, its 16 bits and its two
flags. -/

namespace Sys2Proof.Machine

/-! ## The exact result and its 16 bits (R150) -/

theorem toNat_ofInt16 (w : Int) : ((BitVec.ofInt 16 w).toNat : Int) = w % 65536 := by
  rw [BitVec.toNat_ofInt]
  omega

theorem word_toInt_bounds (v : Word) : -32768 ≤ v.toInt ∧ v.toInt ≤ 32767 := by
  have hge := BitVec.le_toInt v
  have hlt := BitVec.toInt_lt (x := v)
  omega

/-- 16 bits read signed give the exact value exactly when it is in range. -/
theorem toInt_ofInt16_eq_iff (w : Int) :
    (BitVec.ofInt 16 w).toInt = w ↔ -32768 ≤ w ∧ w ≤ 32767 := by
  constructor
  · intro h
    have hbounds := word_toInt_bounds (BitVec.ofInt 16 w)
    omega
  · rintro ⟨hge, hle⟩
    exact BitVec.toInt_ofInt_eq_self (by decide) (by omega) (by omega)

theorem ofInt_sub (n : Nat) (x y : Int) :
    BitVec.ofInt n (x - y) = BitVec.ofInt n x - BitVec.ofInt n y := by
  rw [Int.sub_eq_add_neg, BitVec.ofInt_add, BitVec.ofInt_neg, BitVec.sub_eq_add_neg]

/-- The 16 bits of the exact result do not depend on how the operands were read. -/
theorem ofInt_widened (arith : Arith) (sub : Bool) (a b : Word) :
    BitVec.ofInt 16 (widened arith sub a b) = if sub then a - b else a + b := by
  cases arith <;> cases sub <;> simp [widened, BitVec.ofInt_add, ofInt_sub]

theorem signed_flags (w : Int) :
    (isOverflow .signed w = true ↔ w > 32767) ∧ (isUnderflow .signed w = true ↔ w < -32768) ∧
      ((isOverflow .signed w = false ∧ isUnderflow .signed w = false) ↔
        (BitVec.ofInt 16 w).toInt = w) := by
  refine ⟨decide_eq_true_iff, decide_eq_true_iff, ?_⟩
  simp only [isOverflow, isUnderflow, decide_eq_false_iff_not, toInt_ofInt16_eq_iff]
  omega

theorem unsigned_flags (w : Int) :
    (isOverflow .unsigned w = true ↔ w > 65535) ∧ (isUnderflow .unsigned w = true ↔ w < 0) ∧
      ((isOverflow .unsigned w = false ∧ isUnderflow .unsigned w = false) ↔
        ((BitVec.ofInt 16 w).toNat : Int) = w) := by
  refine ⟨decide_eq_true_iff, decide_eq_true_iff, ?_⟩
  simp only [isOverflow, isUnderflow, decide_eq_false_iff_not, toNat_ofInt16]
  omega

/-! ## AddSub (R150) -/

section addSub
variable (r : Reg) (b : Word) (sub : Bool) (s : State)

theorem addSub_getR_same :
    (addSub r b sub s).getR r = BitVec.ofInt 16 (widened s.cfg.arith sub (s.getR r) b) := by
  simp [addSub]

theorem addSub_getR_ne {q : Reg} (h : q ≠ r) : (addSub r b sub s).getR q = s.getR q := by
  simp [addSub, setArithFlags, h.symm]

theorem addSub_underflow :
    (addSub r b sub s).getCcBit s.cfg.ccIndex.underflow =
      isUnderflow s.cfg.arith (widened s.cfg.arith sub (s.getR r) b) := by
  simp [addSub, setArithFlags]

theorem addSub_overflow (h : s.cfg.ccIndex.wf) :
    (addSub r b sub s).getCcBit s.cfg.ccIndex.overflow =
      isOverflow s.cfg.arith (widened s.cfg.arith sub (s.getR r) b) := by
  have hne : s.cfg.ccIndex.underflow ≠ s.cfg.ccIndex.overflow := by
    intro he
    simp [CcIndex.wf, he] at h
  simp [addSub, setArithFlags, hne]

theorem addSub_getCcBit_ne {j : Fin 4} (ho : j ≠ s.cfg.ccIndex.overflow)
    (hu : j ≠ s.cfg.ccIndex.underflow) : (addSub r b sub s).getCcBit j = s.getCcBit j := by
  simp [addSub, setArithFlags, ho.symm, hu.symm]

theorem addSub_frame :
    addSub r b sub s =
      { s with r := (addSub r b sub s).r, cc := (addSub r b sub s).cc } := rfl

end addSub

theorem not_overflow_and_underflow (arith : Arith) (w : Int) :
    (isOverflow arith w && isUnderflow arith w) = false := by
  cases arith <;> simp [isOverflow, isUnderflow] <;> omega

/-- Settles O22: the flags compare the exact result with the ends of the range. -/
theorem addSubLaw : Obligations.AddSubLaw := by
  intro r b sub s hwf a t ov un ws wu
  have hov : ov = isOverflow s.cfg.arith (widened s.cfg.arith sub a b) :=
    addSub_overflow r b sub s hwf
  have hun : un = isUnderflow s.cfg.arith (widened s.cfg.arith sub a b) :=
    addSub_underflow r b sub s
  have hr : t.getR r = BitVec.ofInt 16 (widened s.cfg.arith sub a b) := addSub_getR_same r b sub s
  refine ⟨hr.trans (ofInt_widened _ _ _ _), fun hsigned => ?_, fun hunsigned => ?_, ?_,
    fun j ho hu => addSub_getCcBit_ne r b sub s ho hu, fun q hq => addSub_getR_ne r b sub s hq,
    addSub_frame r b sub s⟩
  · rw [hsigned] at hov hun hr
    rw [hov, hun, hr]
    exact signed_flags ws
  · rw [hunsigned] at hov hun hr
    rw [hov, hun, hr]
    exact unsigned_flags wu
  · rw [hov, hun]
    exact not_overflow_and_underflow _ _

/-- Settles O23: the law on the word at EA. -/
theorem memoryArithmeticUsesTheWordAtEa : Obligations.MemoryArithmeticUsesTheWordAtEa := by
  intro r a s e hs h he
  obtain ⟨u, hsame, hk⟩ := andThen_operand hs.coherent h he
  obtain ⟨m, w, c, rfl⟩ := sameButAccess_iff.1 hsame
  exact ⟨⟨_, hk _, rfl⟩, ⟨_, hk _, rfl⟩⟩

/-! ## The immediate (R94, R153, R154) -/

theorem toInt_arithImmediate (imm : BitVec 8) : (arithImmediate imm).toInt = imm.toInt :=
  BitVec.toInt_signExtend_of_le (by decide)

theorem toNat_arithImmediate (imm : BitVec 8) :
    ((arithImmediate imm).toNat : Int) = imm.toInt % 65536 := by
  rw [← toNat_ofInt16, ← toInt_arithImmediate, BitVec.ofInt_toInt]

theorem exec_immediate (sub : Bool) (r : Reg) (imm : BitVec 8) (s : State) :
    exec (if sub then .sir r imm else .air r imm) s =
      .next (addSub r (arithImmediate imm) sub s) := by
  cases sub <;> rfl

/-- Settles O24: the law on the sign-extended immediate. -/
theorem immediateArithmeticIsSignExtended : Obligations.ImmediateArithmeticIsSignExtended := by
  intro r imm s hwf sub
  refine ⟨_, exec_immediate sub r imm s, ?_, fun hsigned => ?_, fun hunsigned => ?_,
    fun j ho hu => addSub_getCcBit_ne _ _ _ _ ho hu, fun q hq => addSub_getR_ne _ _ _ _ hq,
    addSub_frame _ _ _ _⟩
  · rw [addSub_getR_same, ofInt_widened, ← ofInt_widened .signed, toNat_ofInt16]
    simp only [widened, toInt_arithImmediate]
  · rw [addSub_overflow _ _ _ _ hwf, addSub_underflow, hsigned, isOverflow, isUnderflow, widened,
      toInt_arithImmediate]
    exact ⟨rfl, rfl⟩
  · rw [addSub_overflow _ _ _ _ hwf, addSub_underflow, hunsigned, isOverflow, isUnderflow, widened,
      toNat_arithImmediate]
    exact ⟨rfl, rfl⟩

end Sys2Proof.Machine

/-! Register to register operations (spec/43_register_ops.md R160 to R166). -/

namespace Sys2Proof.Machine

/-! ## Writes of general registers -/

theorem State.setR_getR (s : State) (r : Reg) : s.setR r (s.getR r) = s := by
  simp [State.setR, State.getR]

theorem State.setR_setR (s : State) (r : Reg) (v w : Word) :
    (s.setR r v).setR r w = s.setR r w := by
  simp [State.setR]

theorem pairLow_ne (rx : Reg) : pairLow rx ≠ rx := by
  revert rx; decide

theorem State.getR_setPair_first (s : State) (rx : Reg) (v w : Word) :
    (s.setPair rx v w).getR rx = v := by
  simp [State.setPair, pairLow_ne]

theorem State.getR_setPair_second (s : State) (rx : Reg) (v w : Word) :
    (s.setPair rx v w).getR (rx + 1) = w := by
  simp [State.setPair, pairLow]

theorem State.getR_setPair_ne (s : State) (rx : Reg) (v w : Word) {q : Reg} (h : q ≠ rx)
    (h' : q ≠ rx + 1) : (s.setPair rx v w).getR q = s.getR q := by
  rw [State.setPair, pairLow, State.getR_setR_ne h', State.getR_setR_ne h]

theorem evenPair_of_even {rx ry : Reg} (hx : rx = 0 ∨ rx = 2) (hy : ry = 0 ∨ ry = 2) :
    evenPair rx ry = true := by
  rcases hx with rfl | rfl <;> rcases hy with rfl | rfl <;> rfl

/-! ## MLT (R161) -/

/-- The product of two 16-bit numbers fits in 32 bits. -/
theorem toInt_product32 (a b : Word) : (product32 a b).toInt = a.toInt * b.toInt := by
  have hge : -(2 ^ 30) ≤ a.toInt * b.toInt := BitVec.le_toInt_mul_toInt
  have hle : a.toInt * b.toInt ≤ 2 ^ 30 := BitVec.toInt_mul_toInt_le
  exact BitVec.toInt_ofInt_eq_self (by decide) (by omega) (by omega)

/-- A 32-bit number is its two halves. -/
theorem halves_append (p : BitVec 32) : p.extractLsb' 16 16 ++ p.extractLsb' 0 16 = p :=
  (BitVec.extractLsb'_append_extractLsb'_eq_extractLsb' rfl).trans (extractLsb'_whole p)

/-- Settles O25: the pair holds the halves of the exact product. -/
theorem mltGivesTheSignedProduct : Obligations.MltGivesTheSignedProduct := by
  intro rx ry s hx hy
  refine ⟨_, if_pos (evenPair_of_even hx hy), ?_,
    fun q hq hq' => State.getR_setPair_ne _ _ _ _ hq hq', rfl⟩
  rw [State.getR_setPair_first, State.getR_setPair_second, halves_append, toInt_product32]

/-! ## DVD (R162) -/

theorem exec_dvd_nonzero {rx ry : Reg} {s : State} (heven : evenPair rx ry = true)
    (h : s.getR ry ≠ 0) :
    exec (.dvd rx ry) s = .next ((setDivZero false s).setPair rx
      (BitVec.ofInt 16 ((s.getR rx).toInt.tdiv (s.getR ry).toInt))
      (BitVec.ofInt 16 ((s.getR rx).toInt.tmod (s.getR ry).toInt))) := by
  simp only [exec, execDvd, heven, if_true, if_neg h, Int.tmod_def, mul_comm]

theorem exec_dvd_zero {rx ry : Reg} {s : State} (heven : evenPair rx ry = true)
    (h : s.getR ry = 0) :
    exec (.dvd rx ry) s = .next (divZeroPolicy (setDivZero true s)) := by
  simp only [exec, execDvd, heven, if_true, if_pos h]

theorem abs_tmod_lt (a : Int) {b : Int} (hb : b ≠ 0) : |a.tmod b| < |b| := by
  rw [Int.abs_eq_natAbs, Int.abs_eq_natAbs, Int.natAbs_tmod]
  exact_mod_cast Nat.mod_lt _ (Int.natAbs_pos.2 hb)

/-- The remainder has the dividend's sign. -/
theorem tmod_mul_self_nonneg (a b : Int) : 0 ≤ a.tmod b * a := by
  rcases le_total 0 a with ha | ha
  · exact mul_nonneg (Int.tmod_nonneg b ha) ha
  · have hneg : 0 ≤ (-a).tmod b * -a := mul_nonneg (Int.tmod_nonneg b (by omega)) (by omega)
    rwa [Int.neg_tmod, neg_mul_neg] at hneg

theorem getCcBit_setDivZero (b : Bool) (s : State) :
    (setDivZero b s).getCcBit s.cfg.ccIndex.divzero = b := by
  simp [setDivZero]

theorem getCcBit_setDivZero_ne (b : Bool) (s : State) {j : Fin 4}
    (h : j ≠ s.cfg.ccIndex.divzero) : (setDivZero b s).getCcBit j = s.getCcBit j :=
  State.getCcBit_setCcBit_ne h

/-- Settles O26: quotient and remainder of the division toward zero. -/
theorem dvdGivesQuotientAndRemainder : Obligations.DvdGivesQuotientAndRemainder := by
  intro rx ry s hx hy h
  have hb : (s.getR ry).toInt ≠ 0 := fun hz => h (BitVec.eq_of_toInt_eq hz)
  refine ⟨_, _, _, exec_dvd_nonzero (evenPair_of_even hx hy) h,
    (Int.tdiv_mul_add_tmod _ _).symm, abs_tmod_lt _ hb, tmod_mul_self_nonneg _ _,
    State.getR_setPair_first .., State.getR_setPair_second .., getCcBit_setDivZero false s,
    fun j hj => getCcBit_setDivZero_ne false s hj,
    fun p hp hp' => State.getR_setPair_ne _ _ _ _ hp hp', rfl⟩

theorem divZeroPolicy_eq (s : State) :
    divZeroPolicy s = s.setHalted (s.halted || (s.cfg.dzPolicy == .halt)) := by
  unfold divZeroPolicy
  cases s.cfg.dzPolicy
  case halt => exact congrArg s.setHalted (Bool.or_true s.halted).symm
  · exact congrArg s.setHalted (Bool.or_false s.halted).symm

/-- Settles O27: DIVZERO, then the policy. -/
theorem dvdByZeroSetsDivzero : Obligations.DvdByZeroSetsDivzero := by
  intro rx ry s hx hy h
  refine ⟨_, exec_dvd_zero (evenPair_of_even hx hy) h, ?_, fun j hj => ?_, ?_⟩ <;>
    rw [divZeroPolicy_eq]
  · exact getCcBit_setDivZero true s
  · exact getCcBit_setDivZero_ne true s hj
  · rfl

/-! ## TRR, AND, ORR, NOT (R163 to R166) -/

/-- Settles O28: one condition bit, the comparison of the two patterns. -/
theorem trrSetsEqualornot : Obligations.TrrSetsEqualornot := by
  intro rx ry s
  refine ⟨_, rfl, ?_, fun j hj => State.getCcBit_setCcBit_ne hj, rfl⟩
  rw [setEqual, State.getCcBit_setCcBit, if_pos rfl, beq_iff_eq, BitVec.toNat_inj]

/-- Settles O29: each is one register write of the bitwise value. -/
theorem bitwiseOperationsActOnEveryBit : Obligations.BitwiseOperationsActOnEveryBit := by
  intro rx ry s
  refine ⟨⟨_, rfl, fun j => ?_, fun q hq => State.getR_setR_ne hq, rfl, ?_⟩,
    ⟨_, rfl, fun j => ?_, fun q hq => State.getR_setR_ne hq, rfl, ?_⟩,
    ⟨_, rfl, fun j => ?_, fun q hq => State.getR_setR_ne hq, rfl, ?_⟩⟩
  · simp
  · rintro rfl
    rw [BitVec.and_self, State.setR_getR]
  · simp
  · rintro rfl
    rw [BitVec.or_self, State.setR_getR]
  · simp
  · simp only [exec, execNot, State.getR_setR, if_true, BitVec.not_not, State.setR_setR,
      State.setR_getR]

end Sys2Proof.Machine

/-! Transfer of control (spec/44_transfer.md R169 to R176), shift and rotate
(spec/45_shift_rotate.md R181, R182), and input and output (spec/46_io.md R191 to R193). -/

namespace Sys2Proof.Machine

/-! ## Jumps (R169) -/

theorem jumpIf_eq (b : Bool) (e : Nat) (s : State) :
    jumpIf b e s = s.setPc (if b then BitVec.ofNat 12 e else s.pc) := by
  cases b <;> rfl

theorem jumpIf_pc_toNat (b : Bool) (e : Nat) (s : State) :
    (jumpIf b e s).pc.toNat = if b then e % 4096 else s.pc.toNat := by
  cases b
  · rfl
  · exact BitVec.toNat_ofNat ..

/-- A jump on a condition after EA(): PC alone, besides what the reads changed. -/
theorem exec_jumpIf {i : Instr} {a : AddrOperand} {s : State} {e : Nat} {b : State → Bool}
    (hs : s.coherent) (h : eaOnMemory a s = some e)
    (hi : exec i s = (effectiveAddress a s).andThen fun e t => .next (jumpIf (b t) e t))
    (hb : ∀ t, SameButAccess s t → b t = b s) :
    ∃ t, exec i s = .next t ∧ t.pc.toNat = (if b s then e % 4096 else s.pc.toNat) ∧
      t = { s with pc := t.pc, mar := t.mar, mbr := t.mbr, cache := t.cache } := by
  obtain ⟨u, ⟨n, hreads⟩, hk⟩ := andThen_effectiveAddress hs h
  have hsame : SameButAccess s u := hreads.same
  refine ⟨_, hi.trans (hk _), ?_, ?_⟩
  · have hpc : u.pc = s.pc := by rw [hsame]
    rw [jumpIf_pc_toNat, hb u hsame, hpc]
  · rw [jumpIf_eq]
    rw [SameButAccess] at hsame
    rw [hsame]
    rfl

/-- Settles O30: the register is tested on the state the reads left. -/
theorem jzAndJneTestTheRegister : Obligations.JzAndJneTestTheRegister := by
  intro r a s e hs h
  have hzero : s.getR r = 0 ↔ (s.getR r).toNat = 0 := BitVec.toNat_eq
  constructor
  · obtain ⟨t, ht, hpc, hframe⟩ := exec_jumpIf (i := .jz r a) (b := fun t => t.getR r == 0)
      hs.coherent h rfl fun t ht => by rw [ht.getR]
    refine ⟨t, ht, ?_, hframe⟩
    simpa only [beq_iff_eq, hzero] using hpc
  · obtain ⟨t, ht, hpc, hframe⟩ := exec_jumpIf (i := .jne r a) (b := fun t => t.getR r != 0)
      hs.coherent h rfl fun t ht => by rw [ht.getR]
    refine ⟨t, ht, ?_, hframe⟩
    simpa only [bne_iff_ne, ne_eq, hzero, ite_not] using hpc

/-- Settles O31: the bit of weight 2^i. -/
theorem jccTestsTheConditionBit : Obligations.JccTestsTheConditionBit := by
  intro i a s e hs h
  obtain ⟨t, ht, hpc, hframe⟩ := exec_jumpIf (i := .jcc i a) (b := fun t => t.getCcBit i)
    hs.coherent h rfl fun t ht => by rw [ht]; rfl
  refine ⟨t, ht, ?_, hframe⟩
  have hbit : s.getCcBit i = true ↔ s.cc.toNat / 2 ^ i.val % 2 = 1 := by
    rw [State.getCcBit, BitVec.getLsbD, Nat.testBit_eq_decide_div_mod_eq, decide_eq_true_iff]
  simpa only [hbit] using hpc

/-- Settles O32: the jump that is always taken. -/
theorem jmaJumpsToEa : Obligations.JmaJumpsToEa := by
  intro a s e hs h
  exact exec_jumpIf (i := .jma a) (b := fun _ => true) hs.coherent h rfl fun _ _ => rfl

/-- Settles O33: one register write and PC. -/
theorem jsrSavesPcAndJumps : Obligations.JsrSavesPcAndJumps := by
  intro a s e hs h
  obtain ⟨u, ⟨n, hreads⟩, hk⟩ := andThen_effectiveAddress hs.coherent h
  obtain ⟨m, w, c, rfl⟩ := sameButAccess_iff.1 hreads.same
  refine ⟨_, hk _, ?_, BitVec.toNat_ofNat .., fun q hq => State.getR_setR_ne hq, rfl⟩
  rw [getR_jumpTo, State.getR_setR]
  exact (congrArg BitVec.toNat (if_pos rfl)).trans (BitVec.toNat_setWidth_of_le (by decide))

/-- Settles O34: one register write, then PC from the linkage register. -/
theorem rfsReturnsThroughTheLink : Obligations.RfsReturnsThroughTheLink := by
  intro imm s
  have himm : (returnImmediate imm).toNat = imm.toNat := BitVec.toNat_setWidth_of_le (by decide)
  have hpc : imm.toNat % 4096 = imm.toNat := Nat.mod_eq_of_lt (Nat.lt_trans imm.isLt (by decide))
  refine ⟨_, rfl, ?_, ?_, fun q hq => State.getR_setR_ne hq, rfl⟩
  · rw [getR_jumpTo, State.getR_setR, if_pos rfl, himm]
  · rw [jumpTo_pc, BitVec.toNat_ofNat, State.setR_cfg]
    by_cases hlink : s.cfg.link = 0
    · rw [if_pos hlink, hlink, State.getR_setR, if_pos rfl, himm]
      exact hpc
    · rw [if_neg hlink, State.getR_setR_ne hlink]

/-- A decremented word, and when it is positive read signed (R176, D18). -/
theorem sub_one_toNat (v : Word) : (v - 1).toNat = (v.toNat + 65535) % 65536 := by
  rw [BitVec.toNat_sub]
  simp [Nat.add_comm]

theorem sub_one_toInt_pos_iff (v : Word) : (v - 1).toInt > 0 ↔ 2 ≤ v.toNat ∧ v.toNat ≤ 32768 := by
  have hlt := v.isLt
  rw [BitVec.toInt_eq_toNat_cond, sub_one_toNat]
  split <;> omega

/-- Settles O35: one register write, then the jump on its signed value. -/
theorem sobDecrementsAndLoops : Obligations.SobDecrementsAndLoops := by
  intro r a s e hs h
  obtain ⟨u, ⟨n, hreads⟩, hk⟩ := andThen_effectiveAddress hs.coherent h
  obtain ⟨m, w, c, rfl⟩ := sameButAccess_iff.1 hreads.same
  refine ⟨_, hk _, ?_, ?_, fun q hq => ?_, ?_⟩
  · rw [jumpIf_eq, ← sub_one_toNat]
    simp
  · rw [jumpIf_pc_toNat, State.getR_setR, if_pos rfl]
    simp only [decide_eq_true_iff, sub_one_toInt_pos_iff]
    rfl
  · rw [jumpIf_eq]
    exact State.getR_setR_ne hq
  · rw [jumpIf_eq]
    rfl

/-! ## Shift and rotate (R181, R182) -/

theorem shiftLeft_toNat (v : Word) (c : Nat) : (v <<< c).toNat = v.toNat * 2 ^ c % 65536 := by
  rw [BitVec.toNat_shiftLeft, Nat.shiftLeft_eq]

theorem ushiftRight_toNat (v : Word) (c : Nat) : (v >>> c).toNat = v.toNat / 2 ^ c := by
  rw [BitVec.toNat_ushiftRight, Nat.shiftRight_eq_div_pow]

theorem sshiftRight_toInt (v : Word) (c : Nat) : (v.sshiftRight c).toInt = v.toInt / 2 ^ c := by
  rw [BitVec.toInt_sshiftRight, Int.shiftRight_eq_div_pow]
  norm_cast

/-- Bit 15 kept, the low 15 bits shifted (R181, D7). -/
theorem arithLeft_toNat (v : Word) (c : Nat) :
    (arithLeft v c).toNat = v.toNat / 32768 * 32768 + v.toNat % 32768 * 2 ^ c % 32768 := by
  have hlt := v.isLt
  rw [arithLeft, toNat_append_eq_add, BitVec.toNat_shiftLeft, Nat.shiftLeft_eq,
    BitVec.extractLsb'_toNat, BitVec.extractLsb'_toNat, Nat.shiftRight_eq_div_pow,
    Nat.shiftRight_zero]
  have htop : v.toNat / 2 ^ 15 % 2 ^ 1 = v.toNat / 32768 := by omega
  rw [htop]
  norm_num

/-- Settles O36: one register write of the value shifted. -/
theorem srcShiftsTheValue : Obligations.SrcShiftsTheValue := by
  intro r al lr count s
  refine ⟨_, rfl, fun hal hlr => ?_, fun hal hlr => ?_, fun hal hlr => ?_, fun hal hlr => ?_,
    fun q hq => State.getR_setR_ne hq, rfl⟩ <;>
    rw [State.getR_setR, if_pos rfl, isLogical, isLeft]
  · rw [beq_iff_eq.2 hal, beq_iff_eq.2 hlr]
    exact shiftLeft_toNat _ _
  · rw [beq_iff_eq.2 hal, beq_eq_false_iff_ne.2 hlr]
    exact ushiftRight_toNat _ _
  · rw [beq_eq_false_iff_ne.2 hal, beq_eq_false_iff_ne.2 hlr]
    exact sshiftRight_toInt _ _
  · rw [beq_eq_false_iff_ne.2 hal, beq_iff_eq.2 hlr]
    exact arithLeft_toNat _ _

/-- Settles O37: one register write of the value rotated. -/
theorem rrcRotatesEveryBit : Obligations.RrcRotatesEveryBit := by
  intro r al lr count s
  have hcount : count.toNat % 16 = count.toNat := Nat.mod_eq_of_lt count.isLt
  refine ⟨_, rfl, fun hlr => ?_, fun hlr => ?_, fun q hq => State.getR_setR_ne hq, rfl⟩
  · simp only [State.getR_setR, if_true, isLeft, rotateWord, beq_iff_eq.2 hlr,
      BitVec.toNat_rotateLeft, hcount, Nat.shiftLeft_eq, Nat.shiftRight_eq_div_pow]
  · simp only [State.getR_setR, if_true, isLeft, rotateWord, beq_eq_false_iff_ne.2 hlr,
      BitVec.toNat_rotateRight, hcount, Nat.shiftLeft_eq, Nat.shiftRight_eq_div_pow,
      Bool.false_eq_true, if_false]

/-! ## IN and OUT (R191 to R193) -/

theorem exec_inp_value {s : State} {n : Int} {rest : List (Option Int)}
    (h : s.consoleIn = some n :: rest) (r : Reg) :
    exec (.inp r 0) s = .next ((s.setConsoleIn rest).setR r (BitVec.ofInt 16 n)) := by
  simp [exec, execInp, consolePoll, consoleInId, h]

theorem exec_inp_retry {s : State} (h : s.consoleIn.head? = some none ∨ s.consoleIn = [])
    (r : Reg) :
    exec (.inp r 0) s = .next { s with pc := s.pc - 1, consoleIn := s.consoleIn.tail } := by
  rcases hin : s.consoleIn with _ | ⟨_ | n, rest⟩
  · simp only [exec, execInp, consolePoll, consoleInId, hin, if_true, List.tail_nil]
    rw [← hin]
    rfl
  · simp only [exec, execInp, consolePoll, consoleInId, hin, if_true]
    rfl
  · simp [hin] at h

/-- Settles O38: the supplier's next answer, and the retry after the fetch's increment of PC. -/
theorem inDeliversOrRetries : Obligations.InDeliversOrRetries := by
  refine ⟨fun r s n rest h => ?_, fun r s h => exec_inp_retry h r, fun r s hs hpc hi h => ?_⟩
  · refine ⟨_, exec_inp_value h r, ?_, fun q hq => State.getR_setR_ne hq, rfl⟩
    rw [State.getR_setR, if_pos rfl, toNat_ofInt16]
  · obtain ⟨u, hread, hmar, hmbr, hstep⟩ := step_of_decode hs.coherent hpc hi
    rw [fetched_eq hread hmar hmbr] at hstep
    refine ⟨_, hstep.trans (exec_inp_retry (by exact h) r), ?_⟩
    simp only [BitVec.add_sub_cancel]

/-- Settles O39: each OUT appends one word. -/
theorem outHandsOverTheRegister : Obligations.OutHandsOverTheRegister := by
  intro r q s
  refine ⟨_, _, rfl, rfl, rfl, ?_⟩
  simp [consoleEmit, State.setConsoleOut, State.getR]

end Sys2Proof.Machine

/-! Frames: what executing an instruction leaves unchanged (spec/10_state.md R34). Each is read off
the three shapes of a next state. -/

namespace Sys2Proof.Machine

/-- The three shapes of a next state of exec: the instruction's own effect after reads, the
MemoryFault of an access, and a store. -/
theorem exec_frame {i : Instr} {s t : State} (h : exec i s = .next t) :
    (∃ m w c, OwnEffect i (((s.setMar m).setMbr w).setCache c) t) ∨
    (usesAddress i = true ∧ MemoryFaultFrom s t) ∨
    (usesAddress i = true ∧ storesToMemory i = true ∧
      t = { s with mem := t.mem, mar := t.mar, mbr := t.mbr, cache := t.cache }) := by
  cases exec_effect h with
  | own n u _ _ reads effect =>
    obtain ⟨m, w, c, rfl⟩ := sameButAccess_iff.1 reads.same
    exact .inl ⟨m, w, c, effect⟩
  | fault n u _ ha reads hf _ => exact .inr (.inl ⟨ha, reads.same.fault hf⟩)
  | store n u e v _ hs ha reads he hw =>
    obtain ⟨w, hw', heq, -⟩ := memWrite_done v u he
    cases hw'.symm.trans hw
    have hsame : SameButAccess s u := reads.same
    rw [SameButAccess] at hsame
    refine .inr (.inr ⟨ha, hs, ?_⟩)
    rw [heq, hsame]

/-- Settles O40, by the three shapes. -/
theorem generalRegistersFrame : Obligations.GeneralRegistersFrame := by
  intro i s t q h hq
  rcases exec_frame h with ⟨m, w, c, effect⟩ | ⟨-, hfault⟩ | ⟨-, -, hstore⟩
  · exact effect.regs q hq
  · rw [hfault]; rfl
  · rw [hstore]; rfl

/-- Settles O41, by the three shapes. -/
theorem indexRegistersFrame : Obligations.IndexRegistersFrame := by
  intro i s t k h hk
  rcases exec_frame h with ⟨m, w, c, effect⟩ | ⟨-, hfault⟩ | ⟨-, -, hstore⟩
  · exact effect.x k hk
  · rw [hfault]; rfl
  · rw [hstore]; rfl

/-- Settles O42, by the three shapes. -/
theorem conditionCodeFrame : Obligations.ConditionCodeFrame := by
  intro i s t j h hj
  rcases exec_frame h with ⟨m, w, c, effect⟩ | ⟨-, hfault⟩ | ⟨-, -, hstore⟩
  · exact effect.cc j hj
  · rw [hfault]; rfl
  · rw [hstore]; rfl

/-- Settles O43, by the three shapes. -/
theorem faultAndHaltFrame : Obligations.FaultAndHaltFrame := by
  intro i s t h
  rcases exec_frame h with ⟨m, w, c, effect⟩ | ⟨haddr, hfault⟩ | ⟨-, -, hstore⟩
  · exact .inr ⟨effect.mfr, effect.halted⟩
  · exact .inl ⟨haddr, hfault⟩
  · rw [hstore]
    exact .inr ⟨rfl, .inl rfl⟩

/-- Settles O44, by the three shapes. -/
theorem memoryFrameOfNonStores : Obligations.MemoryFrameOfNonStores := by
  intro i s t b h hno
  rcases exec_frame h with ⟨m, w, c, effect⟩ | ⟨-, hfault⟩ | ⟨-, hyes, -⟩
  · rw [effect.mem]; rfl
  · rw [hfault]
  · rw [hno] at hyes
    cases hyes

/-- A store leaves every cell outside the word at EA; with no such word it is a fault, which leaves
them all. -/
theorem store_readByte {a : AddrOperand} {v : State → Word} {s t : State} {b : Nat} (hs : s.mem.wf)
    (h : ((effectiveAddress a s).andThen fun e u =>
      (memWrite e (v u) u).andThen fun _ w => .next w) = .next t)
    (hb : ∀ e u, effectiveAddress a s = .done e u → e < memWords → b ≠ 2 * e ∧ b ≠ 2 * e + 1) :
    t.mem.readByte b = s.mem.readByte b := by
  rcases next_of_effectiveAddress h with ⟨e, u, n, hdone, -, hreads, hrest⟩ | ⟨hfault, -⟩
  · rw [← hreads.mem] at hs ⊢
    rcases next_of_memWrite hrest with ⟨w, he, hwrite, hnext⟩ | ⟨-, hfault, -⟩
    · cases hnext
      obtain ⟨t', hwrite', heq, -⟩ := memWrite_done (v u) u he
      cases hwrite'.symm.trans hwrite
      obtain ⟨h0, h1⟩ := hb e u hdone he
      obtain ⟨-, hrest⟩ := Memory.writeWord_spec hs e (v u)
      rw [heq]
      exact hrest b h0 h1
    · rw [hfault]
  · rw [hfault]

/-- Settles O45: both are stores, of R[r] at EA and of X[x] at the unindexed EA. -/
theorem memoryFrameOfStores : Obligations.MemoryFrameOfStores :=
  ⟨fun _ _ _ _ _ hs h hb => store_readByte hs h hb,
    fun _ _ _ _ _ _ hs h hb => store_readByte hs h hb⟩

/-- Settles O46, by the three shapes. -/
theorem programCounterFrame : Obligations.ProgramCounterFrame := by
  intro i s t h hpc
  rcases exec_frame h with ⟨m, w, c, effect⟩ | ⟨-, hfault⟩ | ⟨-, -, hstore⟩
  · exact effect.pc hpc
  · rw [hfault]
  · rw [hstore]

/-- Settles O47, by the three shapes. -/
theorem instructionRegisterAndConsoleFrame : Obligations.InstructionRegisterAndConsoleFrame := by
  intro i s t h
  rcases exec_frame h with ⟨m, w, c, effect⟩ | ⟨-, hfault⟩ | ⟨-, -, hstore⟩
  · obtain ⟨hir, hcfg⟩ := effect.fixed
    exact ⟨hir, hcfg, effect.consoleIn, effect.consoleOut⟩
  · rw [hfault]
    exact ⟨rfl, rfl, .inl rfl, .inl rfl⟩
  · rw [hstore]
    exact ⟨rfl, rfl, .inl rfl, .inl rfl⟩

/-- Settles O48: without an address there is no access. -/
theorem accessRegistersFrame : Obligations.AccessRegistersFrame := by
  intro i s t h hno
  cases exec_effect h with
  | own n u _ hu _ effect =>
    obtain rfl := hu hno
    obtain ⟨hmar, hmbr⟩ := effect.access hno
    exact ⟨hmar, hmbr, effect.cache⟩
  | fault n u _ hyes => cases hno.symm.trans hyes
  | store n u e v _ _ hyes => cases hno.symm.trans hyes

end Sys2Proof.Machine

/-! The host's side: boot, reset and cache clear (spec/70_reset_and_hazards.md R243,
spec/10_state.md R38, R40, spec/20_memory.md R53), the register accessors (spec/60_exceptions.md R221) and run
(spec/40_cycle_ea_halt.md R123). -/

namespace Sys2Proof.Machine

/-! ## The loader (R53) -/

/-- The last pair loaded at an address, if there is one. -/
def lastLoaded (pairs : List (Int × Int)) (a : Nat) : Option (Int × Int) :=
  pairs.reverse.find? fun p => p.1 == (a : Int)

theorem lastLoaded_cons (p : Int × Int) (rest : List (Int × Int)) (a : Nat) :
    lastLoaded (p :: rest) a =
      (lastLoaded rest a).or (if p.1 = (a : Int) then some p else none) := by
  simp only [lastLoaded, List.reverse_cons, List.find?_append, List.find?_singleton, beq_iff_eq]

/-- A load changes memory alone, keeps its canonical form, and leaves at each address the last value
loaded there, else what it held. -/
theorem loadPairs_spec (pairs : List (Int × Int)) {s : State} (hs : s.mem.wf) :
    ∃ m, (loadPairs pairs s).1 = s.setMem m ∧ m.wf ∧ ∀ a, a < memWords →
      m.readWord a = (lastLoaded pairs a).elim (s.mem.readWord a) fun p => BitVec.ofInt 16 p.2 := by
  induction pairs generalizing s with
  | nil => exact ⟨s.mem, rfl, hs, fun _ _ => rfl⟩
  | cons p rest ih =>
    obtain ⟨x, v⟩ := p
    by_cases hx : x < 0 ∨ 2047 < x
    · obtain ⟨m, heq, hwf, hread⟩ := ih hs
      refine ⟨m, ?_, hwf, fun a ha => ?_⟩
      · simp only [loadPairs, memCtlWriteAt_error hx, heq]
      · have ha' : a < 2048 := ha
        rw [hread a ha, lastLoaded_cons, if_neg (show ¬ x = (a : Int) by omega), Option.or_none]
    · obtain ⟨n, rfl, hn⟩ := exists_address_of_inRange (a := x) (by omega) (by omega)
      obtain ⟨m, heq, hwf, hread⟩ := ih (s := s.setMem (s.mem.writeWord n (BitVec.ofInt 16 v)))
        (Memory.wf_writeWord hs hn _)
      refine ⟨m, ?_, hwf, fun a ha => ?_⟩
      · simp only [loadPairs, memCtlWriteAt_ok hn, heq]
        rfl
      · rw [hread a ha, lastLoaded_cons, State.setMem_mem, Memory.readWord_writeWord hs]
        cases lastLoaded rest a with
        | some q => rfl
        | none => by_cases hna : n = a <;> simp [hna]

/-! ## Reset, cache clear, boot -/

theorem resetCpu_getR (s : State) (q : Reg) : (resetCpu s).getR q = 0 := by
  have hzero : ∀ q, State.reset.getR q = 0 := by decide
  exact hzero q

theorem resetCpu_getX (s : State) (k : XReg) : (resetCpu s).getX k = 0 := by
  cases k <;> rfl

theorem toNat_ofInt_eq_emod (w : Nat) (z : Int) : ((BitVec.ofInt w z).toNat : Int) = z % 2 ^ w := by
  rw [BitVec.toNat_ofInt, Int.toNat_of_nonneg (Int.emod_nonneg _ (by positivity))]
  norm_cast

/-- Settles O58: the load by its own law, the rest of the boot order field by field. -/
theorem bootLoadsAndEstablishesTheInvariants :
    Obligations.BootLoadsAndEstablishesTheInvariants := by
  refine ⟨fun pairs entry s hs => ?_, fun s => ⟨resetCpu_getR s, resetCpu_getX s, rfl⟩,
    fun s => ⟨Cache.lines_empty, rfl⟩⟩
  obtain ⟨m, hload, hwf, hread⟩ := loadPairs_spec pairs hs
  have hboot : boot pairs entry s = hostSet .pc entry (resetCpu (cacheClear (s.setMem m))) := by
    rw [boot, hload]
  rw [hboot]
  refine ⟨⟨hwf, Cache.wf_empty, Cache.matches_empty m⟩, toNat_ofInt_eq_emod 12 entry,
    resetCpu_getR s, resetCpu_getX s, Cache.lines_empty, rfl, fun a ha => (hread a ha).trans ?_⟩
  unfold lastLoaded
  cases pairs.reverse.find? fun p => p.1 == (a : Int) <;> rfl

/-! ## The accessors (R221) -/

theorem pack_injective {pack : Vector (Fin 4) 4} (h : pack.toList.Nodup) :
    Function.Injective fun i : Fin 4 => pack[i] := by
  intro i j hij
  exact Fin.ext ((List.Nodup.getElem_inj_iff h (hi := by simp) (hj := by simp)).1
    (by simpa using hij))

/-- Bit `pack[i]` of what the host reads is `cc[i]` (R25). -/
theorem getLsbD_packCc {pack : Vector (Fin 4) 4} (h : pack.toList.Nodup) (cc : BitVec 4)
    (i : Fin 4) : (packCc pack cc).getLsbD pack[i] = cc.getLsbD i := by
  have hinj : ∀ k : Fin 4, pack[k] = pack[i] ↔ k = i := fun k => (pack_injective h).eq_iff
  simp only [packCc, ccIndices, List.foldl_cons, List.foldl_nil, getLsbD_putBit, hinj]
  fin_cases i <;> rfl

theorem getLsbD_unpackCc (pack : Vector (Fin 4) 4) (v : BitVec 4) (i : Fin 4) :
    (unpackCc pack v).getLsbD i = v.getLsbD pack[i] := by
  simp only [unpackCc, ccIndices, List.foldl_cons, List.foldl_nil, getLsbD_putBit]
  fin_cases i <;> rfl

theorem packCc_unpackCc {pack : Vector (Fin 4) 4} (h : pack.toList.Nodup) (v : BitVec 4) :
    packCc pack (unpackCc pack v) = v := by
  refine bits4_ext fun j => ?_
  obtain ⟨i, rfl⟩ := Finite.surjective_of_injective (pack_injective h) j
  exact (getLsbD_packCc h _ i).trans (getLsbD_unpackCc pack v i)

theorem hostGet_hostSet_same {n : NamedReg} {s : State} (z : Int) (h : s.cfg.ccPack.toList.Nodup) :
    ((hostGet n (hostSet n z s) : Nat) : Int) = z % 2 ^ n.width := by
  cases n with
  | pc | ir | mar | mbr | mfr => exact toNat_ofInt_eq_emod _ z
  | cc =>
    have hcc : hostGet .cc (hostSet .cc z s) = (BitVec.ofInt 4 z).toNat :=
      congrArg BitVec.toNat (packCc_unpackCc h _)
    rw [hcc]
    exact toNat_ofInt_eq_emod 4 z
  | r i =>
    rw [hostGet, hostSet, State.getR_setR, if_pos rfl]
    exact toNat_ofInt_eq_emod 16 z
  | x i =>
    rw [hostGet, hostSet, State.getX_setX, if_pos rfl]
    exact toNat_ofInt_eq_emod 16 z

theorem hostGet_hostSet_ne {n k : NamedReg} (z : Int) (s : State) (h : k ≠ n) :
    hostGet k (hostSet n z s) = hostGet k s := by
  cases n with
  | r i =>
    cases k with
    | r j => exact congrArg BitVec.toNat (State.getR_setR_ne fun hji => h (congrArg _ hji))
    | _ => rfl
  | x i =>
    cases k with
    | x j =>
      have hij : i ≠ j := fun hij => h (congrArg _ hij.symm)
      rw [hostGet, hostSet, State.getX_setX, if_neg hij]
      rfl
    | _ => rfl
  | pc | ir | mar | mbr | cc | mfr => cases k <;> trivial

/-- Settles O59: each accessor names one field. -/
theorem hostSetsTruncate : Obligations.HostSetsTruncate := by
  intro n z s h
  refine ⟨hostGet_hostSet_same z h, fun k hk => hostGet_hostSet_ne z s hk, ?_⟩
  cases n <;> rfl

/-! ## run (R123) -/

theorem run_of_halted (f : State → State) (n : Nat) {s : State} (h : s.halted = true) :
    run f n s = .next s := by
  cases n with
  | zero => rfl
  | succ n => rw [run, if_pos h]

/-- A run that has halted gives the same end with any larger limit. -/
theorem run_add (f : State → State) (k : Nat) {n : Nat} {s t : State} (h : run f n s = .next t)
    (ht : t.halted = true) : run f (n + k) s = .next t := by
  induction n generalizing s with
  | zero =>
    cases h
    exact run_of_halted f _ ht
  | succ n ih =>
    by_cases hs : s.halted = true
    · rw [run_of_halted f _ hs] at h ⊢
      exact h
    · rw [Nat.succ_add]
      rw [run, if_neg hs] at h ⊢
      cases hstep : step s with
      | next u =>
        rw [hstep] at h
        exact ih h
      | fault q => simp [hstep] at h
      | refused q => simp [hstep] at h

/-- Settles O60, by induction on the limit of the shorter run. -/
theorem runStopsAtHalted : Obligations.RunStopsAtHalted :=
  ⟨fun f n _ h => run_of_halted f n h, fun f _ k _ _ h ht => run_add f k h ht⟩

end Sys2Proof.Machine
